-- ==== Sys2Proof/Word.lean ====
section
/-! DEFINITION. The machine's words: bytes, nibbles and register numbers (00_scope.md R8, R11). -/

namespace Sys2Proof

/-- A byte: a register, a memory cell, an address, an immediate (R8, R11). Addition and subtraction wrap mod 256 (R23). -/
abbrev Byte := BitVec 8

/-- Half a byte: the 4-bit literal of 30_encoding.md R75. -/
abbrev Nibble := BitVec 4

/-- A register number: every 4-bit value names a register r0 to r15 (30_encoding.md R72). -/
abbrev Reg := BitVec 4

end Sys2Proof
end

