-- ==== Sys2Proof/Syntax.lean ====
section
/-! DEFINITION. The instructions: one constructor for each row of spec/opcode_table.json (30_encoding.md R72 to R77). A register
field is a `Reg`, a 4-bit literal a `Nibble`, an immediate, target or dump id a `Byte`. -/

namespace Sys2Proof

/-- The instructions of the bytesyzed CORE. The opcodes 0xA0 to 0xAC carry the three operand bytes of the fetch window, since
how many of them an opcode uses is the parameter ARITH's to say (44_add_sub.md R180; log 22). -/
inductive Instr where
  | movImmediate (d : Reg) (imm : Byte)
  | movRegReg (a b : Reg)
  | loadIndirect (a b : Reg)
  | storeIndirect (a b : Reg)
  | copyIndirect (a b : Reg)
  | movPair (a b : Reg) (imm : Byte)
  | incImm (a : Reg) (n : Nibble)
  | decImm (a : Reg) (n : Nibble)
  | pcOffsetPlus (a : Reg) (n : Nibble)
  | pcOffsetMinus (a : Reg) (n : Nibble)
  | and (a b : Reg)
  | or (a b : Reg)
  | xor (a b : Reg)
  | shl (a b : Reg)
  | shr (a b : Reg)
  | rol (a b : Reg)
  | ror (a b : Reg)
  | jmp (target : Byte)
  | jl (a b : Reg) (target : Byte)
  | jle (a b : Reg) (target : Byte)
  | je (a b : Reg) (target : Byte)
  | jge (a b : Reg) (target : Byte)
  | jg (a b : Reg) (target : Byte)
  | jne (a b : Reg) (target : Byte)
  | skipIfNZ (a : Reg) (n : Nibble)
  | skipIfZ (a : Reg) (n : Nibble)
  | push (d : Reg)
  | pop (d : Reg)
  | arithA0 (ops : List Byte)
  | arithA1 (ops : List Byte)
  | arithA2 (ops : List Byte)
  | arithA3 (ops : List Byte)
  | arithA4 (ops : List Byte)
  | arithA5 (ops : List Byte)
  | arithA6 (ops : List Byte)
  | arithA7 (ops : List Byte)
  | arithA8 (ops : List Byte)
  | arithA9 (ops : List Byte)
  | arithAA (ops : List Byte)
  | arithAB (ops : List Byte)
  | arithAC (ops : List Byte)
  | call (target : Byte)
  | ret
  | nop
  | putchar
  | getchar
  | printString
  | dumpReg0
  | dumpReg1
  | dumpMem
  | dumpRange
  | dumpRegR1
  | genericDump (id : Byte)
  | exit
  | fileDump
deriving DecidableEq, Repr

end Sys2Proof
end

