-- ==== Sys2Proof/WellFormed.lean ====
section
/-! DEFINITION. Which instruction terms stand for an instruction. Every value of every register, literal, target and id field
is legal (30_encoding.md R72, R79), and the fields' types hold no others; the one check left is that an instruction of the
add/sub family carries exactly the three operand bytes of the fetch window (30_encoding.md R70, 44_add_sub.md R180). -/

namespace Sys2Proof

/-- The latched operand bytes are three: next1, next2 and next3. -/
def opsWellFormed (ops : List Byte) : Bool := ops.length == 3

/-- `wellFormed i`: the term `i` stands for an instruction. -/
def wellFormed : Instr → Bool
  | .arithA0 ops => opsWellFormed ops
  | .arithA1 ops => opsWellFormed ops
  | .arithA2 ops => opsWellFormed ops
  | .arithA3 ops => opsWellFormed ops
  | .arithA4 ops => opsWellFormed ops
  | .arithA5 ops => opsWellFormed ops
  | .arithA6 ops => opsWellFormed ops
  | .arithA7 ops => opsWellFormed ops
  | .arithA8 ops => opsWellFormed ops
  | .arithA9 ops => opsWellFormed ops
  | .arithAA ops => opsWellFormed ops
  | .arithAB ops => opsWellFormed ops
  | .arithAC ops => opsWellFormed ops
  | .movImmediate _ _ | .movRegReg _ _ | .loadIndirect _ _ | .storeIndirect _ _ | .copyIndirect _ _ => true
  | .movPair _ _ _ | .incImm _ _ | .decImm _ _ | .pcOffsetPlus _ _ | .pcOffsetMinus _ _ => true
  | .and _ _ | .or _ _ | .xor _ _ | .shl _ _ | .shr _ _ | .rol _ _ | .ror _ _ => true
  | .jmp _ | .jl _ _ _ | .jle _ _ _ | .je _ _ _ | .jge _ _ _ | .jg _ _ _ | .jne _ _ _ => true
  | .skipIfNZ _ _ | .skipIfZ _ _ | .push _ | .pop _ | .call _ | .ret => true
  | .nop | .putchar | .getchar | .printString => true
  | .dumpReg0 | .dumpReg1 | .dumpMem | .dumpRange | .dumpRegR1 | .genericDump _ | .exit | .fileDump => true

end Sys2Proof
end

