-- ==== Sys2Proof/Decode.lean ====
section
/-! DEFINITION. Decoding bytes to instructions, total and rejecting by name (30_encoding.md R72 to R79), then the encoder from the
same tables, the lengths of R74 and the assembly text of R90. -/

namespace Sys2Proof

/-- Why bytes are no instruction. -/
inductive DecodeError where
  /-- The opcode byte is one of the 156 undefined ones (R78). -/
  | invalidOpcode (op : Byte)
  /-- The bytes end before the last byte the instruction needs. A fetch window never does. -/
  | truncated
deriving DecidableEq, Repr

/-- `hi(b) = b[7:4]` (00_scope.md R12, 30_encoding.md R72). -/
def hi (b : Byte) : BitVec 4 := b.extractLsb' 4 4

/-- `lo(b) = b[3:0]` (R12, R72). -/
def lo (b : Byte) : BitVec 4 := b.extractLsb' 0 4

/-- The byte whose high nibble is `a` and whose low nibble is `b` (R72). -/
def pack (a b : BitVec 4) : Byte := a ++ b

/-! ### Decoding -/

/-- An instruction without operand bytes: formats Z and R (R73). -/
def form0 (i : Instr) : Except DecodeError Instr := .ok i

/-- Format I and RI: one operand byte, used whole (R73). -/
def formI (f : Byte → Instr) : List Byte → Except DecodeError Instr
  | n1 :: _ => .ok (f n1)
  | [] => .error .truncated

/-- Formats RR and RN: one operand byte, split in two nibbles (R73). -/
def formRR (f : BitVec 4 → BitVec 4 → Instr) : List Byte → Except DecodeError Instr
  | n1 :: _ => .ok (f (hi n1) (lo n1))
  | [] => .error .truncated

/-- Format RRI: a pair of nibbles, then a byte (R73). -/
def formRRI (f : BitVec 4 → BitVec 4 → Byte → Instr) : List Byte → Except DecodeError Instr
  | n1 :: n2 :: _ => .ok (f (hi n1) (lo n1) n2)
  | _ => .error .truncated

/-- Format ARITH: the three bytes of the window (R70, R73). -/
def formArith (f : List Byte → Instr) : List Byte → Except DecodeError Instr
  | n1 :: n2 :: n3 :: _ => .ok (f [n1, n2, n3])
  | _ => .error .truncated

/-- Opcodes 0x10 to 0x18. -/
def decode1 (op : Byte) (rest : List Byte) : Except DecodeError Instr :=
  match (lo op).toNat with
  | 0 => formRR .movRegReg rest
  | 1 => formRR .loadIndirect rest
  | 2 => formRR .storeIndirect rest
  | 3 => formRR .copyIndirect rest
  | 4 => formRRI .movPair rest
  | 5 => formRR .incImm rest
  | 6 => formRR .decImm rest
  | 7 => formRR .pcOffsetPlus rest
  | 8 => formRR .pcOffsetMinus rest
  | _ => .error (.invalidOpcode op)

/-- Opcodes 0x50 to 0x53. -/
def decode5 (op : Byte) (rest : List Byte) : Except DecodeError Instr :=
  match (lo op).toNat with
  | 0 => formRR .shl rest
  | 1 => formRR .shr rest
  | 2 => formRR .rol rest
  | 3 => formRR .ror rest
  | _ => .error (.invalidOpcode op)

/-- Opcodes 0x70 to 0x78. -/
def decode7 (op : Byte) (rest : List Byte) : Except DecodeError Instr :=
  match (lo op).toNat with
  | 0 => formI .jmp rest
  | 1 => formRRI .jl rest
  | 2 => formRRI .jle rest
  | 3 => formRRI .je rest
  | 4 => formRRI .jge rest
  | 5 => formRRI .jg rest
  | 6 => formRRI .jne rest
  | 7 => formRR .skipIfNZ rest
  | 8 => formRR .skipIfZ rest
  | _ => .error (.invalidOpcode op)

/-- Opcodes 0xA0 to 0xAC. -/
def decodeA (op : Byte) (rest : List Byte) : Except DecodeError Instr :=
  match (lo op).toNat with
  | 0 => formArith .arithA0 rest
  | 1 => formArith .arithA1 rest
  | 2 => formArith .arithA2 rest
  | 3 => formArith .arithA3 rest
  | 4 => formArith .arithA4 rest
  | 5 => formArith .arithA5 rest
  | 6 => formArith .arithA6 rest
  | 7 => formArith .arithA7 rest
  | 8 => formArith .arithA8 rest
  | 9 => formArith .arithA9 rest
  | 10 => formArith .arithAA rest
  | 11 => formArith .arithAB rest
  | 12 => formArith .arithAC rest
  | _ => .error (.invalidOpcode op)

/-- Opcodes 0xC2 and 0xC3. -/
def decodeC (op : Byte) (rest : List Byte) : Except DecodeError Instr :=
  match (lo op).toNat with
  | 2 => formI .call rest
  | 3 => form0 .ret
  | _ => .error (.invalidOpcode op)

/-- Opcodes 0xE0 to 0xE2 and 0xE8 to 0xEF. -/
def decodeE (op : Byte) (rest : List Byte) : Except DecodeError Instr :=
  match (lo op).toNat with
  | 0 => form0 .putchar
  | 1 => form0 .getchar
  | 2 => form0 .printString
  | 8 => form0 .dumpReg0
  | 9 => form0 .dumpReg1
  | 10 => form0 .dumpMem
  | 11 => form0 .dumpRange
  | 12 => form0 .dumpRegR1
  | 13 => formI .genericDump rest
  | 14 => form0 .exit
  | 15 => form0 .fileDump
  | _ => .error (.invalidOpcode op)

/-- The row of a family with a single opcode, its low nibble 0: 0x20, 0x30, 0x40, 0xD0. -/
def decodeSingle (op : Byte) (r : Except DecodeError Instr) : Except DecodeError Instr :=
  match (lo op).toNat with
  | 0 => r
  | _ => .error (.invalidOpcode op)

/-- The opcode map of R77 and R78, dispatched on the opcode byte alone. -/
def decodeOpcode (op : Byte) (rest : List Byte) : Except DecodeError Instr :=
  match (hi op).toNat with
  | 0 => formI (.movImmediate (lo op)) rest
  | 1 => decode1 op rest
  | 2 => decodeSingle op (formRR .and rest)
  | 3 => decodeSingle op (formRR .or rest)
  | 4 => decodeSingle op (formRR .xor rest)
  | 5 => decode5 op rest
  | 7 => decode7 op rest
  | 8 => form0 (.push (lo op))
  | 9 => form0 (.pop (lo op))
  | 10 => decodeA op rest
  | 12 => decodeC op rest
  | 13 => decodeSingle op (form0 .nop)
  | 14 => decodeE op rest
  | _ => .error (.invalidOpcode op)

/-- `decode bytes`: the instruction at the head of `bytes`, or why there is none. -/
def decode : List Byte → Except DecodeError Instr
  | [] => .error .truncated
  | op :: rest => decodeOpcode op rest

/-- The opcode byte is one of the 100 defined ones (R77). -/
def definedOpcode (op : Byte) : Bool :=
  match decodeOpcode op [0, 0, 0] with
  | .ok _ => true
  | .error _ => false

/-! ### Encoding -/

/-- The bytes of an instruction, opcode first (R73, R77). An add/sub instruction gives the whole fetch window. -/
def encode : Instr → List Byte
  | .movImmediate d imm => [pack 0x0 d, imm]
  | .movRegReg a b => [0x10, pack a b]
  | .loadIndirect a b => [0x11, pack a b]
  | .storeIndirect a b => [0x12, pack a b]
  | .copyIndirect a b => [0x13, pack a b]
  | .movPair a b imm => [0x14, pack a b, imm]
  | .incImm a n => [0x15, pack a n]
  | .decImm a n => [0x16, pack a n]
  | .pcOffsetPlus a n => [0x17, pack a n]
  | .pcOffsetMinus a n => [0x18, pack a n]
  | .and a b => [0x20, pack a b]
  | .or a b => [0x30, pack a b]
  | .xor a b => [0x40, pack a b]
  | .shl a b => [0x50, pack a b]
  | .shr a b => [0x51, pack a b]
  | .rol a b => [0x52, pack a b]
  | .ror a b => [0x53, pack a b]
  | .jmp t => [0x70, t]
  | .jl a b t => [0x71, pack a b, t]
  | .jle a b t => [0x72, pack a b, t]
  | .je a b t => [0x73, pack a b, t]
  | .jge a b t => [0x74, pack a b, t]
  | .jg a b t => [0x75, pack a b, t]
  | .jne a b t => [0x76, pack a b, t]
  | .skipIfNZ a n => [0x77, pack a n]
  | .skipIfZ a n => [0x78, pack a n]
  | .push d => [pack 0x8 d]
  | .pop d => [pack 0x9 d]
  | .arithA0 ops => 0xA0 :: ops
  | .arithA1 ops => 0xA1 :: ops
  | .arithA2 ops => 0xA2 :: ops
  | .arithA3 ops => 0xA3 :: ops
  | .arithA4 ops => 0xA4 :: ops
  | .arithA5 ops => 0xA5 :: ops
  | .arithA6 ops => 0xA6 :: ops
  | .arithA7 ops => 0xA7 :: ops
  | .arithA8 ops => 0xA8 :: ops
  | .arithA9 ops => 0xA9 :: ops
  | .arithAA ops => 0xAA :: ops
  | .arithAB ops => 0xAB :: ops
  | .arithAC ops => 0xAC :: ops
  | .call t => [0xC2, t]
  | .ret => [0xC3]
  | .nop => [0xD0]
  | .putchar => [0xE0]
  | .getchar => [0xE1]
  | .printString => [0xE2]
  | .dumpReg0 => [0xE8]
  | .dumpReg1 => [0xE9]
  | .dumpMem => [0xEA]
  | .dumpRange => [0xEB]
  | .dumpRegR1 => [0xEC]
  | .genericDump id => [0xED, id]
  | .exit => [0xEE]
  | .fileDump => [0xEF]

/-- The used operand bytes of R74, for every instruction whose length the opcode byte fixes: not for printString, whose scan
is no operand fetch (0), nor for the add/sub family, whose count is ARITH's (none). -/
def usedOperands : Instr → Option Nat
  | .arithA0 _ | .arithA1 _ | .arithA2 _ | .arithA3 _ | .arithA4 _ | .arithA5 _ | .arithA6 _ => none
  | .arithA7 _ | .arithA8 _ | .arithA9 _ | .arithAA _ | .arithAB _ | .arithAC _ => none
  | .movPair _ _ _ => some 2
  | .jl _ _ _ | .jle _ _ _ | .je _ _ _ | .jge _ _ _ | .jg _ _ _ | .jne _ _ _ => some 2
  | .movImmediate _ _ | .movRegReg _ _ | .loadIndirect _ _ | .storeIndirect _ _ | .copyIndirect _ _ => some 1
  | .incImm _ _ | .decImm _ _ | .pcOffsetPlus _ _ | .pcOffsetMinus _ _ => some 1
  | .and _ _ | .or _ _ | .xor _ _ | .shl _ _ | .shr _ _ | .rol _ _ | .ror _ _ => some 1
  | .jmp _ | .skipIfNZ _ _ | .skipIfZ _ _ | .call _ | .genericDump _ => some 1
  | .push _ | .pop _ | .ret | .nop | .putchar | .getchar | .printString => some 0
  | .dumpReg0 | .dumpReg1 | .dumpMem | .dumpRange | .dumpRegR1 | .exit | .fileDump => some 0

/-! ### The opcode table's words -/

/-- Byte `k` of an instruction of `nbits` bits whose bits are `w`; every bit above `nbits` is 0. -/
def tableByte (nbits w k : Nat) : Byte := BitVec.ofNat 8 ((w % 2 ^ nbits) / 256 ^ k)

/-- The four bytes of the fetch window for an instruction of `nbits` bits whose bits are `w`. -/
def tableWindow (nbits w : Nat) : List Byte :=
  [tableByte nbits w 0, tableByte nbits w 1, tableByte nbits w 2, tableByte nbits w 3]

/-- What the decoder reads from an instruction of the opcode table: the first byte holds the least significant bits. -/
def decodeTableWord (nbits w : Nat) : Option Instr :=
  match decode (tableWindow nbits w) with
  | .ok i => some i
  | .error _ => none

/-! ### Assembly text (R90) -/

/-- One hexadecimal digit, 0 to 9 or a capital A to F, as the programs of 95_test_vectors.md write bytes. DESIGN CHOICE (log 24;
safe): R90 gives no letter case. -/
def hexDigit (n : BitVec 4) : String :=
  String.singleton (Char.ofNat (if n.toNat < 10 then 48 + n.toNat else 55 + n.toNat))

/-- A byte in assembly text, as the programs of 95_test_vectors.md write it. -/
def asmByte (b : Byte) : String := "0x" ++ hexDigit (hi b) ++ hexDigit (lo b)

/-- A register in assembly text: `r` and the hexadecimal digit of its index, as R90 has it. DESIGN CHOICE (log 24; safe): the
digits from 10 on are the capitals A to F, for which R90 gives no letter case and R21 the names r10 to r15. -/
def asmReg (r : Reg) : String := "r" ++ hexDigit r

/-- `name rA, rB`. -/
def asmRR (name : String) (a b : Reg) : String := name ++ " " ++ asmReg a ++ ", " ++ asmReg b

/-- `name rA, n`. -/
def asmRN (name : String) (a : Reg) (n : Nibble) : String := name ++ " " ++ asmReg a ++ ", " ++ hexDigit n

/-- `name rA, rB, byte`. -/
def asmRRI (name : String) (a b : Reg) (v : Byte) : String := asmRR name a b ++ ", " ++ asmByte v

/-- `name byte`. -/
def asmI (name : String) (v : Byte) : String := name ++ " " ++ asmByte v

/-- The add/sub family has no row in R90. DESIGN CHOICE (log 24; safe): its name, then its operand bytes as they stand. -/
def asmArith (name : String) (ops : List Byte) : String := name ++ String.join (ops.map fun b => " " ++ asmByte b)

/-- The assembly form of an instruction (R90). printString's text is data in memory, not part of the instruction. -/
def asmText : Instr → String
  | .movImmediate d imm => "movImmediate " ++ asmReg d ++ ", " ++ asmByte imm
  | .movRegReg a b => asmRR "movRegReg" a b
  | .loadIndirect a b => "loadIndirect " ++ asmReg a ++ ", [" ++ asmReg b ++ "]"
  | .storeIndirect a b => "storeIndirect [" ++ asmReg a ++ "], " ++ asmReg b
  | .copyIndirect a b => "copyIndirect [" ++ asmReg a ++ "], [" ++ asmReg b ++ "]"
  | .movPair a b imm => asmRRI "movPair" a b imm
  | .incImm a n => asmRN "incImm" a n
  | .decImm a n => asmRN "decImm" a n
  | .pcOffsetPlus a n => asmRN "pcOffset+" a n
  | .pcOffsetMinus a n => asmRN "pcOffset-" a n
  | .and a b => asmRR "and" a b
  | .or a b => asmRR "or" a b
  | .xor a b => asmRR "xor" a b
  | .shl a b => asmRR "shl" a b
  | .shr a b => asmRR "shr" a b
  | .rol a b => asmRR "rol" a b
  | .ror a b => asmRR "ror" a b
  | .jmp t => asmI "jmp" t
  | .jl a b t => asmRRI "jl" a b t
  | .jle a b t => asmRRI "jle" a b t
  | .je a b t => asmRRI "je" a b t
  | .jge a b t => asmRRI "jge" a b t
  | .jg a b t => asmRRI "jg" a b t
  | .jne a b t => asmRRI "jne" a b t
  | .skipIfNZ a n => asmRN "skipIfNZ" a n
  | .skipIfZ a n => asmRN "skipIfZ" a n
  | .push d => "push " ++ asmReg d
  | .pop d => "pop " ++ asmReg d
  | .arithA0 ops => asmArith "arith_A0" ops
  | .arithA1 ops => asmArith "arith_A1" ops
  | .arithA2 ops => asmArith "arith_A2" ops
  | .arithA3 ops => asmArith "arith_A3" ops
  | .arithA4 ops => asmArith "arith_A4" ops
  | .arithA5 ops => asmArith "arith_A5" ops
  | .arithA6 ops => asmArith "arith_A6" ops
  | .arithA7 ops => asmArith "arith_A7" ops
  | .arithA8 ops => asmArith "arith_A8" ops
  | .arithA9 ops => asmArith "arith_A9" ops
  | .arithAA ops => asmArith "arith_AA" ops
  | .arithAB ops => asmArith "arith_AB" ops
  | .arithAC ops => asmArith "arith_AC" ops
  | .call t => asmI "call" t
  | .ret => "ret"
  | .nop => "nop"
  | .putchar => "putchar"
  | .getchar => "getchar"
  | .printString => "printString"
  | .dumpReg0 => "dumpReg0"
  | .dumpReg1 => "dumpReg1"
  | .dumpMem => "dumpMem"
  | .dumpRange => "dumpRange"
  | .dumpRegR1 => "dumpRegR1"
  | .genericDump id => asmI "genericDump" id
  | .exit => "exit"
  | .fileDump => "fileDump"

/-- A piece of a program's text (R90): an instruction, a printString with its text, or data bytes. -/
inductive AsmItem where
  | instr (i : Instr)
  | printText (text : List Byte)
  | data (bytes : List Byte)
deriving DecidableEq, Repr

/-- The bytes of a piece: a printString is its opcode, the text's bytes and a zero (R73 format S, R90, R91). -/
def assembleItem : AsmItem → List Byte
  | .instr i => encode i
  | .printText text => 0xE2 :: text ++ [0x00]
  | .data bytes => bytes

/-- The bytes of a program's text. -/
def assemble (items : List AsmItem) : List Byte := items.flatMap assembleItem

end Sys2Proof
end

