-- ==== Sys2Proof/Config.lean ====
section
/-! DEFINITION. The implementation parameters of 00_scope.md R9 and R10, and the free values. A parameter that selects a reading is plain
data (a State carries one `Params`, which no step changes: log 1); a parameter or value that the spec leaves open is an
opaque constant, of which nothing can be proved. -/

namespace Sys2Proof

/-- P_NOT_TAKEN (R10, decision D3): where a jump or skip that is not taken goes. -/
inductive NotTaken where
  | length
  | literal
deriving DecidableEq, Repr, Inhabited

/-- P_PC_WRITE (R10, D6): whether the generic advance still applies after a sequential instruction wrote r15. -/
inductive PcWrite where
  | advance
  | bypass
deriving DecidableEq, Repr, Inhabited

/-- P_SHR (R10, D7): what opcode 0x51 does. -/
inductive ShrMode where
  | referenceLeft
  | logicalRight
deriving DecidableEq, Repr, Inhabited

/-- P_ROT (R10, D8): the rotate result when the destination field is not 0. -/
inductive RotMode where
  | nibble
  | draw
deriving DecidableEq, Repr, Inhabited

/-- P_ADDR_OVERFLOW (R10, D10): a used operand byte or a string scan past address 0xFF. -/
inductive AddrOverflow where
  | fault
  | wrap
deriving DecidableEq, Repr, Inhabited

/-- P_PUTS_END (R10, D17): where printString leaves the pc. -/
inductive PutsEnd where
  | atZero
  | afterZero
deriving DecidableEq, Repr, Inhabited

/-- The parameters one machine has (R9, R10). `arithGiven` says whether the model has the table ARITH (R14, R180). -/
structure Params where
  notTaken     : NotTaken
  pcWrite      : PcWrite
  shr          : ShrMode
  rot          : RotMode
  addrOverflow : AddrOverflow
  putsEnd      : PutsEnd
  arithGiven   : Bool
deriving DecidableEq, Repr, Inhabited

/-- The defaults of R10. That ARITH is given, as the opaque table `Config.arith`, is a DESIGN CHOICE (log 2; safe). -/
def Params.specDefault : Params where
  notTaken     := .length
  pcWrite      := .advance
  shr          := .referenceLeft
  rot          := .nibble
  addrOverflow := .fault
  putsEnd      := .atZero
  arithGiven   := true

/-! ### The parameter ARITH (44_add_sub.md R180) -/

/-- The thirteen opcodes 0xA0 to 0xAC. -/
inductive ArithOp where
  | a0 | a1 | a2 | a3 | a4 | a5 | a6 | a7 | a8 | a9 | aa | ab | ac
deriving DecidableEq, Repr, Inhabited

/-- R180 (a): what a written value is made of: a register, a memory byte, or a literal of one of the `n` used operand
bytes (the byte, its high nibble or its low nibble). -/
inductive ArithSrc (n : Nat) where
  | reg  (i : Reg)
  | mem  (addr : Byte)
  | byte (k : Fin n)
  | high (k : Fin n)
  | low  (k : Fin n)
deriving DecidableEq, Repr

/-- Where a write goes: a register other than r15 (the range stops at 14), or a memory cell (R180). -/
inductive ArithDest where
  | reg (i : Fin 15)
  | mem (addr : Byte)
deriving DecidableEq, Repr

/-- One write: `u + w` or, where `subtract`, `u - w`, mod 256 (R180 (a)). -/
structure ArithWrite (n : Nat) where
  dest     : ArithDest
  subtract : Bool
  u        : ArithSrc n
  w        : ArithSrc n
deriving DecidableEq, Repr

/-- An entry of ARITH: `nOps` used operand bytes (so the length is `nOps + 1`, 1 to 4) and the writes, a function of the
registers, the memory, the opcode's address A and the used operand bytes (R180). -/
structure ArithEntry where
  nOps : Fin 4
  exec : (Reg → Byte) → (Byte → Byte) → Byte → (Fin nOps → Byte) → List (ArithWrite nOps)
deriving Inhabited

/-- The table ARITH, which is not in the source (91_not_in_source.md N1): an uninterpreted parameter (log 2). DESIGN CHOICE; safe: what
is proved holds for every table that meets R180. -/
opaque Config.arith : ArithOp → ArithEntry

/-! ### The open parameters and the free values -/

/-- PROGRAM_START, OPEN (R9, D1; log 3). -/
opaque Config.programStart0 : Byte

/-- VERBOSE0, OPEN (R9, D20; log 3). -/
opaque Config.verbose0 : Bool

/-- PROMPT0, OPEN (R9, D20; log 3). -/
opaque Config.prompt0 : Bool

/-- A free byte, one for each draw: rotates under P_ROT = draw (log 13), memory after a failed load (log 15), the fault
bytes after a wipe (log 5). Safe: nothing constrains it. -/
opaque Config.freeByte : Nat → Byte

/-- The value that dumpRegR1 reports for an index of 16 or more (46_system_io.md R218), one for each event (log 14). -/
opaque Config.freeDump : Nat → Byte

/-- A free number, from which the fault reason after a wipe is taken (10_state.md R40; log 5). -/
opaque Config.freeReason : Nat → Fin 4

end Sys2Proof
end

