-- ==== Sys2Proof/Machine/State.lean ====
section
/-! DEFINITION. The machine's state as plain data (10_state.md), the reasons a step can stop, and the state right after
construction (10_state.md R40, 70_reset_and_hazards.md R270). -/

namespace Sys2Proof.Machine

/-- `run` of 10_state.md R33. -/
inductive RunState where
  | idle
  | running
  | awaitInput
  | exited
  | faulted
deriving DecidableEq, Repr, Inhabited

/-- The hardware's fault reasons (60_exceptions.md R240). Taking one is a next state, with `run` faulted (R241; log 10). -/
inductive FaultReason where
  | invalidOpcode
  | stackOverflow
  | stackUnderflow
  | addressRange
deriving DecidableEq, Repr, Inhabited

/-- The kind a `Halt` event carries (10_state.md R37). -/
inductive HaltKind where
  | exited
  | faulted (reason : FaultReason)
deriving DecidableEq, Repr

/-- The events of the character-output channel (R35, R36) and of the diagnostic channel (R37). A dump carries the pairs the
sink receives, in order; the order and form of `fileSnapshot` are a DESIGN CHOICE (log 23). Events have no text (log 11). -/
inductive Event where
  | char (c : Byte)
  | prompt
  | dumpReg (i v : Byte)
  | dumpRegs (regs : List (Byte × Byte))
  | dumpMem (cells : List (Byte × Byte))
  | dumpRange (first last : Byte) (cells : List (Byte × Byte))
  | fileSnapshot (cells regs : List (Byte × Byte))
  | trace (addr op : Byte)
  | halt (kind : HaltKind)
deriving DecidableEq, Repr

/-- What the host does (10_state.md R36, R38). `load` is a whole load under the loader contract, with the integers it reads; it
may fail (70_reset_and_hazards.md R275). -/
inductive HostAction where
  | setProgramStart (v : Byte)
  | setFlags (verbose promptOnInput : Bool)
  | loadWrite (addr v : Byte)
  | load (tokens : List Int)
  | wipe
  | start
  | input (n : Int)
deriving DecidableEq, Repr

/-- The operand latch: next1, next2 and next3, read at fetch (10_state.md R41, 30_encoding.md R70). -/
structure Latch where
  next1 : Byte
  next2 : Byte
  next3 : Byte
deriving DecidableEq, Repr

/-- Memory: the cells that do not hold `memDefault`, addresses strictly rising (20_memory.md R50). -/
abbrev Memory := List Host.Cell

/-- What an unlisted address reads as: memory is zeroed at construction and by a wipe (R40; log 18). -/
def memDefault : Byte := 0x00

/-- The state of the block. The last five fields are the model's own (logs 1, 7, 12, 13, 15). -/
structure State where
  /-- x[0] to x[15]; x[14] is sp and x[15] is pc (R20, R21, R22). -/
  regs          : Vector Byte 16
  /-- The memory array (20_memory.md R50). -/
  mem           : Memory
  /-- The run state (R33). -/
  run           : RunState
  /-- Valid when run is faulted (R33). -/
  faultReason   : FaultReason
  /-- A of the faulting instruction, valid when run is faulted (R33). -/
  faultPc       : Byte
  /-- The opcode byte at A, valid when run is faulted (R33). -/
  faultOpcode   : Byte
  /-- Emit a trace event before each instruction (R33). -/
  verbose       : Bool
  /-- Emit a prompt before getchar waits (R33). -/
  promptOnInput : Bool
  /-- Load address, initial pc and sentinel value (R33, 70_reset_and_hazards.md R271). -/
  programStart  : Byte
  /-- The operand latch (R41). -/
  latch         : Latch
  /-- The events sent so far, oldest first, in the one total order of 20_memory.md R63. -/
  events        : List Event
  /-- The implementation parameters; no step changes them (00_scope.md R9, R10; log 1). -/
  params        : Params
  /-- The host's pending actions, the next one first (log 7). -/
  host          : List HostAction
  /-- A load has failed: memory is unspecified and no run may start (R38; log 15). -/
  loadFailed    : Bool
  /-- A printString that meets no zero byte is in progress (93_implementation_defined.md I15; log 12). -/
  inString      : Bool
  /-- How many free values have been drawn (00_scope.md R14; log 13). -/
  draws         : Nat
deriving DecidableEq, Repr

/-- Why the machine stops with a fault of the model. None is a fault of the hardware: those are next states (log 10). -/
inductive Fault where
  /-- Raised by the step when the host's next action is one that 10_state.md R38 forbids in this run state: `input` outside
  AwaitInput, or any other action in AwaitInput. Safe: the spec gives no such run (log 8). -/
  | hostActionNotAllowed
  /-- Raised by the step when the host starts a run after a failed load, which R38 forbids. Safe (log 15). -/
  | startAfterFailedLoad
deriving DecidableEq, Repr

/-- Why the model gives no meaning. -/
inductive Refusal where
  /-- Raised by an arm of `exec` that has no meaning yet; no arm does. Safe. -/
  | notModelled (mnemonic : String)
  /-- Raised by the opcodes 0xA0 to 0xAC when ARITH is absent: Refuse(ArithUnspecified) of 00_scope.md R14 and 60_exceptions.md
  R245. Safe. -/
  | arithUnspecified
deriving DecidableEq, Repr

/-- What a meaning answers. -/
abbrev Result := Host.Outcome State Fault Refusal

/-- The state at construction (R40, R270). PROGRAM_START, VERBOSE0 and PROMPT0 are the opaque parameters of log 3; the fault
fields' values are a DESIGN CHOICE (log 4, unsafe), the latch's too (log 6, unsafe), and so are the model's own fields. -/
def State.reset : State where
  regs          := Vector.replicate 16 0x00
  mem           := []
  run           := .idle
  faultReason   := .invalidOpcode
  faultPc       := 0x00
  faultOpcode   := 0x00
  verbose       := Config.verbose0
  promptOnInput := Config.prompt0
  programStart  := Config.programStart0
  latch         := ⟨0x00, 0x00, 0x00⟩
  events        := []
  params        := Params.specDefault
  host          := []
  loadFailed    := false
  inString      := false
  draws         := 0

end Sys2Proof.Machine
end

