-- ==== Sys2Proof/Machine/Ops.lean ====
section
/-! DEFINITION. The named operations over memory and registers, the events, the program counter's updates, the fetch, and taking
a fault. Pseudocode names are those of 00_scope.md R12. -/

namespace Sys2Proof.Machine

/-! ### Memory (20_memory.md) -/

/-- The cell at address `a`. -/
def memLookup : Memory → Nat → Byte
  | [], _ => memDefault
  | (k, v) :: rest, a => if k = a then v else memLookup rest a

/-- List the cell `(a, v)`, in place of the one listed at `a`. -/
def memInsert : Memory → Nat → Byte → Memory
  | [], a, v => [(a, v)]
  | (k, w) :: rest, a, v =>
    if a < k then (a, v) :: (k, w) :: rest
    else if a = k then (a, v) :: rest
    else (k, w) :: memInsert rest a v

/-- List no cell at `a`. -/
def memErase : Memory → Nat → Memory
  | [], _ => []
  | (k, w) :: rest, a => if k = a then rest else (k, w) :: memErase rest a

/-- `MemRead(a, 1)` (R12, 20_memory.md R54). -/
def memRead (m : Memory) (a : Byte) : Byte := memLookup m a.toNat

/-- `MemWrite(a, 1, v)` (R12, R54). Writing what an unlisted address reads as removes the entry. -/
def memWrite (m : Memory) (a v : Byte) : Memory :=
  if v = memDefault then memErase m a.toNat else memInsert m a.toNat v

/-- The canonical form from address `low` on: addresses strictly rising, below 256, and no cell that holds `memDefault`. -/
def memWfFrom : Nat → Memory → Bool
  | _, [] => true
  | low, (k, v) :: rest => decide (low ≤ k) && decide (k < 256) && (v != memDefault) && memWfFrom (k + 1) rest

/-- The canonical form of memory. -/
def Memory.wf (m : Memory) : Bool := memWfFrom 0 m

/-- The memory whose cell at each address `a` is `f a`. -/
@[irreducible] def memOfFn (f : Nat → Byte) : Memory :=
  (List.range 256).foldl (fun m a => memWrite m (BitVec.ofNat 8 a) (f a)) []

/-! ### Registers (10_state.md R20 to R31) -/

/-- r15, the program counter (R26). -/
def pcReg : Reg := 15

/-- r14, the stack pointer (R31). -/
def spReg : Reg := 14

/-- `x[r]` (R12). During an instruction x[15] is A, the address of its opcode byte (R27). -/
def State.reg (s : State) (r : Reg) : Byte := s.regs.get r.toFin

/-- `x[r] <- v` (R12, R22, R23): every register is written alike. -/
def State.setReg (s : State) (r : Reg) (v : Byte) : State :=
  { s with regs := s.regs.set r.toNat v r.isLt }

/-- `pc` (R12, R26). -/
def State.pc (s : State) : Byte := s.reg pcReg

/-- `pc <- target` (R12): a control transfer, with no advance after it (R29). -/
def State.setPc (s : State) (v : Byte) : State := s.setReg pcReg v

/-- `sp` (R12, R31). -/
def State.sp (s : State) : Byte := s.reg spReg

/-- `MemWrite(a, 1, v)` on the state's memory. -/
def State.store (s : State) (a v : Byte) : State := { s with mem := memWrite s.mem a v }

/-- `MemRead(a, 1)` on the state's memory. -/
def State.load (s : State) (a : Byte) : Byte := memRead s.mem a

/-- The generic advance by length `len` (R28); `wrotePc` says whether the instruction wrote r15. -/
def advance (len : Byte) (wrotePc : Bool) (s : State) : State :=
  if s.params.pcWrite = .bypass ∧ wrotePc = true then s else s.setPc (s.pc + len)

/-- The end of a sequential instruction of length `len` that writes `v` to register `a` and nothing else: the write, then
the advance (R22, R28). -/
def writeAdvance (a : Reg) (v len : Byte) (s : State) : State :=
  advance len (a == pcReg) (s.setReg a v)

/-! ### Events (10_state.md R35 to R37, 20_memory.md R63) -/

/-- `Emit(c)` and `Diag(e)` (R12): the event follows every earlier one. -/
def emit (e : Event) (s : State) : State := { s with events := s.events ++ [e] }

/-- Several events, in order. -/
def emitAll (es : List Event) (s : State) : State := { s with events := s.events ++ es }

/-! ### Taking a fault (60_exceptions.md R240 to R242)

There is no return from a fault (R248): the host starts the next run (Machine/HostPort.lean). -/

/-- `raise Fault(reason)` (R12, R241): registers and memory stay as they are; the run state, the reason, A and the opcode
byte at A are recorded, and `Halt` is sent. -/
def raiseFault (reason : FaultReason) (s : State) : State :=
  { s with
    run         := .faulted
    faultReason := reason
    faultPc     := s.pc
    faultOpcode := memRead s.mem s.pc
    events      := s.events ++ [.halt (.faulted reason)] }

/-- The code of a fault reason (R240). -/
def faultCode : FaultReason → Nat
  | .invalidOpcode => 1
  | .stackOverflow => 2
  | .stackUnderflow => 3
  | .addressRange => 4

/-- The reason with number `k`, counted from 0 in the order of R240. -/
def faultReasonOf (k : Fin 4) : FaultReason :=
  match k.val with
  | 0 => .invalidOpcode
  | 1 => .stackOverflow
  | 2 => .stackUnderflow
  | _ => .addressRange

/-! ### Status and result (10_state.md R39, 60_exceptions.md R244) -/

/-- What the block outputs as its status. -/
inductive Status where
  | idle
  | running
  | awaitInput
  | exited
  | faulted (reason : FaultReason) (pc opcode : Byte)
deriving DecidableEq, Repr

/-- `status` (R39): the fault fields show only when the run has faulted. -/
def State.status (s : State) : Status :=
  match s.run with
  | .idle => .idle
  | .running => .running
  | .awaitInput => .awaitInput
  | .exited => .exited
  | .faulted => .faulted s.faultReason s.faultPc s.faultOpcode

/-- `result` (R39, R244): x[0] once the run has exited or faulted, nothing before. -/
def State.result (s : State) : Option Byte :=
  match s.run with
  | .exited | .faulted => some (s.reg 0)
  | .idle | .running | .awaitInput => none

/-! ### Fetch (30_encoding.md R70, R80) -/

/-- The opcode byte at A = pc. -/
def fetchOpcode (s : State) : Byte := memRead s.mem s.pc

/-- `if verbose: Diag(Trace(A, op))` (R80). -/
def traceFetch (s : State) : State :=
  { s with events := if s.verbose then s.events ++ [.trace s.pc (fetchOpcode s)] else s.events }

/-- Latch the three bytes after the opcode (R70, R41). One past 0xFF is read at its address mod 256; where the instruction
uses it under P_ADDR_OVERFLOW = fault, the instruction raises AddressRange instead (R71; log 6). -/
def latchOperands (s : State) : State :=
  { s with latch := ⟨memRead s.mem (s.pc + 1), memRead s.mem (s.pc + 2), memRead s.mem (s.pc + 3)⟩ }

/-- The fetch window: the opcode byte and the latched operand bytes. -/
def fetchWindow (s : State) : List Byte :=
  [fetchOpcode s, s.latch.next1, s.latch.next2, s.latch.next3]

/-- Store `bytes` from address `a` upward, addresses mod 256. -/
def storeBytes : List Byte → Byte → State → State
  | [], _, s => s
  | b :: rest, a, s => storeBytes rest (a + 1) (s.store a b)

end Sys2Proof.Machine
end

