-- ==== Sys2Proof/Machine/Operands.lean ====
section
/-! DEFINITION. Operand forms: used operand bytes and their address range (20_memory.md R56, 30_encoding.md R71), literals
(30_encoding.md R75), register-indirect memory operands (20_memory.md R51), and the shared shape of format RR. -/

namespace Sys2Proof.Machine

/-- With `k` used operand bytes, the last one at A + k lies past 0xFF and P_ADDR_OVERFLOW = fault (R56, R71). -/
def operandOverflow (k : Nat) (s : State) : Bool :=
  (s.params.addrOverflow == .fault) && decide (0xFF < s.pc.toNat + k)

/-- An instruction with `k` used operand bytes: AddressRange where one lies past 0xFF, else its effect `body` (R80, R246). -/
def withOperands (k : Nat) (s body : State) : State :=
  if operandOverflow k s then raiseFault .addressRange s else body

/-- A 4-bit literal as an unsigned byte, 0 to 15 (R75). -/
def literal (n : Nibble) : Byte := n.setWidth 8

/-- The memory operand whose address is in register `r` (R51): every register value is a legal address (R56). -/
def indirect (s : State) (r : Reg) : Byte := s.load (s.reg r)

/-- Format RR with a register result: `x[a] <- f x[a] x[b]`, length 2 (41_logic_shift.md). -/
def rrNext (f : Byte → Byte → Byte) (a b : Reg) (s : State) : State :=
  withOperands 1 s (writeAdvance a (f (s.reg a) (s.reg b)) 2 s)

/-- One used operand byte, register `a` receives `v`, length 2. -/
def writeNext (a : Reg) (v : Byte) (s : State) : State :=
  withOperands 1 s (writeAdvance a v 2 s)

end Sys2Proof.Machine
end

