-- ==== Sys2Proof/Machine/AddSub.lean ====
section
/-! DEFINITION. The add/subtract family, opcodes 0xA0 to 0xAC (44_add_sub.md). What each opcode computes is the parameter ARITH
(R180), here the opaque table `Config.arith`; where the machine's parameters say it is absent, the opcodes are refused. -/

namespace Sys2Proof.Machine

/-- Used operand byte `k` of the latched ones. A well-formed instruction has all three. -/
def arithOperand (ops : List Byte) {n : Nat} (k : Fin n) : Byte := ops.getD k.val 0x00

/-- The value of a source (R180 (a)). -/
def arithSrc (s : State) (ops : List Byte) {n : Nat} : ArithSrc n → Byte
  | .reg i => s.reg i
  | .mem addr => s.load addr
  | .byte k => arithOperand ops k
  | .high k => (hi (arithOperand ops k)).setWidth 8
  | .low k => (lo (arithOperand ops k)).setWidth 8

/-- The value a write gives (R180 (a)): a sum or a difference mod 256. -/
def arithValue (s : State) (ops : List Byte) {n : Nat} (w : ArithWrite n) : Byte :=
  if w.subtract then arithSrc s ops w.u - arithSrc s ops w.w else arithSrc s ops w.u + arithSrc s ops w.w

/-- Apply one write. -/
def arithApply (s : State) (d : ArithDest) (v : Byte) : State :=
  match d with
  | .reg i => s.setReg (BitVec.ofNat 4 i.val) v
  | .mem addr => s.store addr v

/-- Apply writes in list order. -/
def arithApplyAll (s : State) : List (ArithDest × Byte) → State
  | [] => s
  | (d, v) :: rest => arithApplyAll (arithApply s d v) rest

/-- The writes of an entry, every value read from the state before the instruction (R180: all reads before any write). -/
def arithWrites (e : ArithEntry) (ops : List Byte) (s : State) : List (ArithDest × Byte) :=
  (e.exec s.reg s.load s.pc (fun k => arithOperand ops k)).map fun w => (w.dest, arithValue s ops w)

/-- The length of an entry's instruction, 1 to 4 (R180). -/
def arithLength (e : ArithEntry) : Byte := BitVec.ofNat 8 (e.nOps.val + 1)

/-- The effect of an entry: its writes, then the generic advance (R180 (c)). -/
def arithNext (e : ArithEntry) (ops : List Byte) (s : State) : State :=
  withOperands e.nOps.val s (advance (arithLength e) false (arithApplyAll s (arithWrites e ops s)))

/-- An add/sub opcode (R180): refused when ARITH is absent (R246: before the operand bytes are checked). -/
def arith (op : ArithOp) (ops : List Byte) (s : State) : Result :=
  if s.params.arithGiven then .next (arithNext (Config.arith op) ops s) else .refused .arithUnspecified

/-- arith_A0 (R181). -/
def execArithA0 (ops : List Byte) (s : State) : Result := arith .a0 ops s

/-- arith_A1 (R182). -/
def execArithA1 (ops : List Byte) (s : State) : Result := arith .a1 ops s

/-- arith_A2 (R183). -/
def execArithA2 (ops : List Byte) (s : State) : Result := arith .a2 ops s

/-- arith_A3 (R184). -/
def execArithA3 (ops : List Byte) (s : State) : Result := arith .a3 ops s

/-- arith_A4 (R185). -/
def execArithA4 (ops : List Byte) (s : State) : Result := arith .a4 ops s

/-- arith_A5 (R186). -/
def execArithA5 (ops : List Byte) (s : State) : Result := arith .a5 ops s

/-- arith_A6 (R187). -/
def execArithA6 (ops : List Byte) (s : State) : Result := arith .a6 ops s

/-- arith_A7 (R188). -/
def execArithA7 (ops : List Byte) (s : State) : Result := arith .a7 ops s

/-- arith_A8 (R189). -/
def execArithA8 (ops : List Byte) (s : State) : Result := arith .a8 ops s

/-- arith_A9 (R190). -/
def execArithA9 (ops : List Byte) (s : State) : Result := arith .a9 ops s

/-- arith_AA (R191). -/
def execArithAA (ops : List Byte) (s : State) : Result := arith .aa ops s

/-- arith_AB (R192). -/
def execArithAB (ops : List Byte) (s : State) : Result := arith .ab ops s

/-- arith_AC (R193). -/
def execArithAC (ops : List Byte) (s : State) : Result := arith .ac ops s

end Sys2Proof.Machine
end

