-- ==== Sys2Proof/Machine/Flags.lean ====
section
/-! DEFINITION. Conditions. The hardware has no flags and no instruction writes one (10_state.md R32); jumps and skips compare
register values directly, unsigned (42_branch.md R151 to R159, decisions D4 and D5). -/

namespace Sys2Proof.Machine

/-- jl: `u < v`, unsigned (R152). -/
def condL (u v : Byte) : Bool := decide (u.toNat < v.toNat)

/-- jle: `u ≤ v`, unsigned (R153). -/
def condLe (u v : Byte) : Bool := decide (u.toNat ≤ v.toNat)

/-- je: `u = v` (R154). -/
def condE (u v : Byte) : Bool := decide (u = v)

/-- jge: `u ≥ v`, unsigned (R155). -/
def condGe (u v : Byte) : Bool := decide (v.toNat ≤ u.toNat)

/-- jg: `u > v`, unsigned (R156). -/
def condG (u v : Byte) : Bool := decide (v.toNat < u.toNat)

/-- jne: `u ≠ v` (R157). -/
def condNe (u v : Byte) : Bool := decide (u ≠ v)

/-- skipIfNZ: the register is not zero (R158). -/
def condNZ (u : Byte) : Bool := decide (u ≠ 0)

/-- skipIfZ: the register is zero (R159). -/
def condZ (u : Byte) : Bool := decide (u = 0)

end Sys2Proof.Machine
end

