-- ==== Sys2Proof/Machine/Branch.lean ====
section
/-! DEFINITION. Jumps, conditional jumps and conditional skips: opcodes 0x70 to 0x78 (42_branch.md). All are control transfers: no
advance follows (10_state.md R29). -/

namespace Sys2Proof.Machine

/-- Where an instruction of length `len` that is not taken goes (R151, R158): past it under P_NOT_TAKEN = length, one byte
less under literal. -/
def notTakenPc (len : Byte) (s : State) : Byte :=
  match s.params.notTaken with
  | .length => s.pc + len
  | .literal => s.pc + (len - 1)

/-- The conditional jump (R151) with relation `c`. -/
def condJumpNext (c : Byte → Byte → Bool) (a b : Reg) (target : Byte) (s : State) : State :=
  withOperands 2 s (s.setPc (if c (s.reg a) (s.reg b) then target else notTakenPc 3 s))

/-- The conditional skip (R158, R159) with test `c`. -/
def skipNext (c : Byte → Bool) (a : Reg) (n : Nibble) (s : State) : State :=
  withOperands 1 s (s.setPc (if c (s.reg a) then s.pc + literal n + 2 else notTakenPc 2 s))

/-- jmp (R150). -/
def execJmp (target : Byte) (s : State) : Result := .next (withOperands 1 s (s.setPc target))

/-- jl (R152). -/
def execJl (a b : Reg) (target : Byte) (s : State) : Result := .next (condJumpNext condL a b target s)

/-- jle (R153). -/
def execJle (a b : Reg) (target : Byte) (s : State) : Result := .next (condJumpNext condLe a b target s)

/-- je (R154). -/
def execJe (a b : Reg) (target : Byte) (s : State) : Result := .next (condJumpNext condE a b target s)

/-- jge (R155). -/
def execJge (a b : Reg) (target : Byte) (s : State) : Result := .next (condJumpNext condGe a b target s)

/-- jg (R156). -/
def execJg (a b : Reg) (target : Byte) (s : State) : Result := .next (condJumpNext condG a b target s)

/-- jne (R157). -/
def execJne (a b : Reg) (target : Byte) (s : State) : Result := .next (condJumpNext condNe a b target s)

/-- skipIfNZ (R158). -/
def execSkipIfNZ (a : Reg) (n : Nibble) (s : State) : Result := .next (skipNext condNZ a n s)

/-- skipIfZ (R159). -/
def execSkipIfZ (a : Reg) (n : Nibble) (s : State) : Result := .next (skipNext condZ a n s)

end Sys2Proof.Machine
end

