-- ==== Sys2Proof/Machine/LogicShift.lean ====
section
/-! DEFINITION. Logic, shift and rotate: opcodes 0x20, 0x30, 0x40, 0x50 to 0x53 (41_logic_shift.md). -/

namespace Sys2Proof.Machine

/-- The shift amount `x[b] mod 8` (R133). -/
def shiftAmount (v : Byte) : Nat := v.toNat % 8

/-- `(v * 2^s) mod 256` with `s` the amount in `w` (R133). -/
def shlValue (v w : Byte) : Byte := v <<< shiftAmount w

/-- `floor(v / 2^s)` with `s` the amount in `w` (R134, logical_right). -/
def shrValue (v w : Byte) : Byte := v >>> shiftAmount w

/-- Rotate left by the amount in `w` (R135). -/
def rolValue (v w : Byte) : Byte := (v <<< shiftAmount w) ||| (v >>> (8 - shiftAmount w))

/-- Rotate right by the amount in `w` (R136). -/
def rorValue (v w : Byte) : Byte := (v >>> shiftAmount w) ||| (v <<< (8 - shiftAmount w))

/-- A rotate (R135, R136): under P_ROT = draw with `a ≠ 0` the result is a free byte and the draw is counted, else `f`. -/
def rotateNext (f : Byte → Byte → Byte) (a b : Reg) (s : State) : State :=
  withOperands 1 s
    (if s.params.rot = .draw ∧ a ≠ 0 then
      writeAdvance a (Config.freeByte s.draws) 2 { s with draws := s.draws + 1 }
    else
      writeAdvance a (f (s.reg a) (s.reg b)) 2 s)

/-- and (R130). -/
def execAnd (a b : Reg) (s : State) : Result := .next (rrNext (fun u v => u &&& v) a b s)

/-- or (R131). -/
def execOr (a b : Reg) (s : State) : Result := .next (rrNext (fun u v => u ||| v) a b s)

/-- xor (R132). -/
def execXor (a b : Reg) (s : State) : Result := .next (rrNext (fun u v => u ^^^ v) a b s)

/-- shl (R133). -/
def execShl (a b : Reg) (s : State) : Result := .next (rrNext shlValue a b s)

/-- What opcode 0x51 computes (R134): a left shift under P_SHR = reference_left, a right shift under logical_right. -/
def shrModeValue (mode : ShrMode) (v w : Byte) : Byte :=
  match mode with
  | .referenceLeft => shlValue v w
  | .logicalRight => shrValue v w

/-- shr (R134). -/
def execShr (a b : Reg) (s : State) : Result := .next (rrNext (shrModeValue s.params.shr) a b s)

/-- rol (R135). -/
def execRol (a b : Reg) (s : State) : Result := .next (rotateNext rolValue a b s)

/-- ror (R136). -/
def execRor (a b : Reg) (s : State) : Result := .next (rotateNext rorValue a b s)

end Sys2Proof.Machine
end

