-- ==== Sys2Proof/Machine/Moves.lean ====
section
/-! DEFINITION. Register and memory moves, immediate add, pc offset: opcodes 0x00 to 0x18 (40_register_memory.md). -/

namespace Sys2Proof.Machine

/-- movImmediate (R100): into r15 it is a jump, with no advance under every P_PC_WRITE. -/
def execMovImmediate (d : Reg) (imm : Byte) (s : State) : Result :=
  .next (withOperands 1 s (if d = pcReg then s.setPc imm else writeAdvance d imm 2 s))

/-- movRegReg (R101). -/
def execMovRegReg (a b : Reg) (s : State) : Result :=
  .next (writeNext a (s.reg b) s)

/-- loadIndirect (R102). -/
def execLoadIndirect (a b : Reg) (s : State) : Result :=
  .next (writeNext a (indirect s b) s)

/-- storeIndirect (R103). -/
def execStoreIndirect (a b : Reg) (s : State) : Result :=
  .next (withOperands 1 s (advance 2 false (s.store (s.reg a) (s.reg b))))

/-- copyIndirect (R104): the read comes before the write. -/
def execCopyIndirect (a b : Reg) (s : State) : Result :=
  .next (withOperands 1 s (advance 2 false (s.store (s.reg a) (indirect s b))))

/-- movPair (R105): both registers receive the same literal. -/
def execMovPair (a b : Reg) (imm : Byte) (s : State) : Result :=
  .next (withOperands 2 s (advance 3 (a == pcReg || b == pcReg) ((s.setReg a imm).setReg b imm)))

/-- incImm (R106). -/
def execIncImm (a : Reg) (n : Nibble) (s : State) : Result :=
  .next (writeNext a (s.reg a + literal n) s)

/-- decImm (R107). -/
def execDecImm (a : Reg) (n : Nibble) (s : State) : Result :=
  .next (writeNext a (s.reg a - literal n) s)

/-- pcOffset+ (R108): pc reads as A. -/
def execPcOffsetPlus (a : Reg) (n : Nibble) (s : State) : Result :=
  .next (writeNext a (s.pc + literal n) s)

/-- pcOffset- (R109): pc reads as A. -/
def execPcOffsetMinus (a : Reg) (n : Nibble) (s : State) : Result :=
  .next (writeNext a (s.pc - literal n) s)

end Sys2Proof.Machine
end

