-- ==== Sys2Proof/Machine/Stack.lean ====
section
/-! DEFINITION. The stack: push, pop, call and ret (43_stack.md, 45_call_return.md), with the stack-boundary fault detector of
10_state.md R31. -/

namespace Sys2Proof.Machine

/-- `sp <- sp - 1; MemWrite(sp, 1, v)` (R170, R200). -/
def pushByte (v : Byte) (s : State) : State :=
  (s.setReg spReg (s.sp - 1)).store (s.sp - 1) v

/-- `sp <- sp + 1` after the read of a pop (R171, R201). -/
def popSp (s : State) : State := s.setReg spReg (s.sp + 1)

/-- The pushing instructions' check: StackOverflow where sp = 0x00 (R170, R200). -/
def withPush (s body : State) : State := if s.sp = 0x00 then raiseFault .stackOverflow s else body

/-- The popping instructions' check: StackUnderflow where sp = 0xFF (R171, R201). -/
def withPop (s body : State) : State := if s.sp = 0xFF then raiseFault .stackUnderflow s else body

/-- push (R170): the register is read before sp changes. -/
def execPush (d : Reg) (s : State) : Result :=
  .next (withPush s (advance 1 false (pushByte (s.reg d) s)))

/-- pop (R171): the register is written last; into r15 it is a control transfer. -/
def execPop (d : Reg) (s : State) : Result :=
  .next (withPop s
    (if d = pcReg then (popSp s).setPc (s.load s.sp) else writeAdvance d (s.load s.sp) 1 (popSp s)))

/-- call (R200): the return address is A + 2, mod 256. -/
def execCall (target : Byte) (s : State) : Result :=
  .next (withOperands 1 s (withPush s ((pushByte (s.pc + 2) s).setPc target)))

/-- ret (R201). -/
def execRet (s : State) : Result :=
  .next (withPop s ((popSp s).setPc (s.load s.sp)))

end Sys2Proof.Machine
end

