-- ==== Sys2Proof/Machine/SystemIo.lean ====
section
/-! DEFINITION. No-op, character I/O, diagnostics and exit: opcodes 0xD0, 0xE0 to 0xE2, 0xE8 to 0xEF (46_system_io.md). -/

namespace Sys2Proof.Machine

/-! ### Snapshots for the diagnostic events (10_state.md R37) -/

/-- (index, value) of all registers, index 0 to 15. -/
def allRegs (s : State) : List (Byte × Byte) :=
  (List.range 16).map fun i => (BitVec.ofNat 8 i, s.reg (BitVec.ofNat 4 i))

/-- (address, value) of all cells, address 0 to 255. -/
def allMem (s : State) : List (Byte × Byte) :=
  (List.range 256).map fun a => (BitVec.ofNat 8 a, s.load (BitVec.ofNat 8 a))

/-- The addresses from `first` to `last` inclusive: ascending if `first ≤ last`, else descending (R37, R217). -/
def rangeAddrs (first last : Byte) : List Byte :=
  if first.toNat ≤ last.toNat then
    (List.range (last.toNat - first.toNat + 1)).map fun i => first + BitVec.ofNat 8 i
  else
    (List.range (first.toNat - last.toNat + 1)).map fun i => first - BitVec.ofNat 8 i

/-- (address, value) of the cells from `first` to `last`. -/
def rangeMem (first last : Byte) (s : State) : List (Byte × Byte) :=
  (rangeAddrs first last).map fun a => (a, s.load a)

/-- The Diagnostic Dispatch `dump(id)` (R222): its events, in order. -/
def dumpEvents (id : Byte) (s : State) : List Event :=
  if id.toNat < 16 then [.dumpReg id (s.reg (lo id))]
  else if id = 0xFD then [.dumpMem (allMem s), .dumpRegs (allRegs s)]
  else if id = 0xFE then [.dumpMem (allMem s)]
  else if id = 0xFF then [.dumpRegs (allRegs s)]
  else []

/-- A one-byte sequential instruction that sends events and does nothing else. -/
def sendNext (es : List Event) (s : State) : State := advance 1 false (emitAll es s)

/-! ### No-op and output -/

/-- nop (R210). -/
def execNop (s : State) : Result := .next (advance 1 false s)

/-- putchar (R211). -/
def execPutchar (s : State) : Result := .next (sendNext [.char (s.reg 1)] s)

/-! ### getchar (R212): its beginning here, its completion by `Input(n)` in Machine/HostPort.lean (60_exceptions.md R243; log 16) -/

/-- The prompt, if asked for, is sent once, and the run waits; pc stays at A (R212, D28). -/
def execGetchar (s : State) : Result :=
  .next { s with
    run    := .awaitInput
    events := if s.promptOnInput then s.events ++ [.prompt] else s.events }

/-- The completion of getchar with the host's integer `n`: `x[0] <- n mod 256`, then the advance (R212, R36). -/
def completeGetchar (n : Int) (s : State) : State :=
  writeAdvance 0 (BitVec.ofInt 8 n) 1 { s with run := .running }

/-! ### printString (R213) -/

/-- How a string scan ends: at a zero byte, past address 0xFF, or never. -/
inductive ScanEnd where
  | zero (addr : Byte)
  | past
  | endless
deriving DecidableEq, Repr

/-- The scan of R213 from address `a`, with `fuel` reads left: the characters met and how it ends. With 256 reads it has
met every cell, so a scan that uses them all never ends (log 12). -/
def scanString (m : Memory) (mode : AddrOverflow) : Nat → Nat → List Byte × ScanEnd
  | 0, _ => ([], .endless)
  | fuel + 1, a =>
    if mode = .fault ∧ 0xFF < a then ([], .past)
    else
      let addr := BitVec.ofNat 8 a
      let c := memRead m addr
      if c = 0 then ([], .zero addr)
      else
        let r := scanString m mode fuel (addr.toNat + 1)
        (c :: r.1, r.2)

/-- The scan of the printString at A. -/
def scanAt (s : State) : List Byte × ScanEnd := scanString s.mem s.params.addrOverflow 256 (s.pc.toNat + 1)

/-- Where printString leaves the pc when its string ends at `addr` (R213, P_PUTS_END). -/
def putsEndPc (mode : PutsEnd) (addr : Byte) : Byte :=
  match mode with
  | .atZero => addr
  | .afterZero => addr + 1

/-- The effect of printString (R213): the characters are sent in order; then the pc is set, or AddressRange is raised with
the characters staying sent (60_exceptions.md R241), or the instruction goes on for ever (93_implementation_defined.md I15): the model sends one
lap of memory a step, the state otherwise as it is (log 12). -/
def printStringNext (s : State) : State :=
  let s1 := emitAll ((scanAt s).1.map .char) s
  match (scanAt s).2 with
  | .zero addr => s1.setPc (putsEndPc s.params.putsEnd addr)
  | .past => raiseFault .addressRange s1
  | .endless => { s1 with inString := true }

/-- printString (R213). -/
def execPrintString (s : State) : Result := .next (printStringNext s)

/-! ### Diagnostics (R214 to R222) -/

/-- dumpReg0 (R214). -/
def execDumpReg0 (s : State) : Result := .next (sendNext [.dumpReg 0 (s.reg 0)] s)

/-- dumpReg1 (R215). -/
def execDumpReg1 (s : State) : Result := .next (sendNext [.dumpReg 1 (s.reg 1)] s)

/-- dumpMem (R216). -/
def execDumpMem (s : State) : Result := .next (sendNext [.dumpMem (allMem s)] s)

/-- dumpRange (R217). -/
def execDumpRange (s : State) : Result :=
  .next (sendNext [.dumpRange (s.reg 1) (s.reg 2) (rangeMem (s.reg 1) (s.reg 2) s)] s)

/-- The value dumpRegR1 reports (R218): the register whose index is in r1; a free value where that is 16 or more (log 14). -/
def dumpRegR1Value (s : State) : Byte :=
  if (s.reg 1).toNat < 16 then s.reg (lo (s.reg 1)) else Config.freeDump s.events.length

/-- dumpRegR1 (R218). -/
def execDumpRegR1 (s : State) : Result := .next (sendNext [.dumpReg (s.reg 1) (dumpRegR1Value s)] s)

/-- genericDump (R219). -/
def execGenericDump (id : Byte) (s : State) : Result :=
  .next (withOperands 1 s (advance 2 false (emitAll (dumpEvents id s) s)))

/-- exit (R220): only the run state changes; pc stays at A. -/
def execExit (s : State) : Result := .next (emit (.halt .exited) { s with run := .exited })

/-- fileDump (R221): all 256 cells and all 16 registers, the latter with pc = A. DESIGN CHOICE (log 23; unsafe for a claim about
that order): the event carries two lists of pairs, cells by address and registers by index, both ascending; the spec gives
no order or form. -/
def execFileDump (s : State) : Result := .next (sendNext [.fileSnapshot (allMem s) (allRegs s)] s)

end Sys2Proof.Machine
end

