-- ==== Sys2Proof/Machine/Dispatch.lean ====
section
/-! DEFINITION. The dispatch: one arm for each constructor of Instr, in the order of the opcode table. -/

namespace Sys2Proof.Machine

def exec (i : Instr) (s : State) : Host.Outcome State Fault Refusal :=
  match i with
  | .movImmediate d imm => Sys2Proof.Machine.execMovImmediate d imm s
  | .movRegReg a b => Sys2Proof.Machine.execMovRegReg a b s
  | .loadIndirect a b => Sys2Proof.Machine.execLoadIndirect a b s
  | .storeIndirect a b => Sys2Proof.Machine.execStoreIndirect a b s
  | .copyIndirect a b => Sys2Proof.Machine.execCopyIndirect a b s
  | .movPair a b imm => Sys2Proof.Machine.execMovPair a b imm s
  | .incImm a n => Sys2Proof.Machine.execIncImm a n s
  | .decImm a n => Sys2Proof.Machine.execDecImm a n s
  | .pcOffsetPlus a n => Sys2Proof.Machine.execPcOffsetPlus a n s
  | .pcOffsetMinus a n => Sys2Proof.Machine.execPcOffsetMinus a n s
  | .and a b => Sys2Proof.Machine.execAnd a b s
  | .or a b => Sys2Proof.Machine.execOr a b s
  | .xor a b => Sys2Proof.Machine.execXor a b s
  | .shl a b => Sys2Proof.Machine.execShl a b s
  | .shr a b => Sys2Proof.Machine.execShr a b s
  | .rol a b => Sys2Proof.Machine.execRol a b s
  | .ror a b => Sys2Proof.Machine.execRor a b s
  | .jmp target => Sys2Proof.Machine.execJmp target s
  | .jl a b target => Sys2Proof.Machine.execJl a b target s
  | .jle a b target => Sys2Proof.Machine.execJle a b target s
  | .je a b target => Sys2Proof.Machine.execJe a b target s
  | .jge a b target => Sys2Proof.Machine.execJge a b target s
  | .jg a b target => Sys2Proof.Machine.execJg a b target s
  | .jne a b target => Sys2Proof.Machine.execJne a b target s
  | .skipIfNZ a n => Sys2Proof.Machine.execSkipIfNZ a n s
  | .skipIfZ a n => Sys2Proof.Machine.execSkipIfZ a n s
  | .push d => Sys2Proof.Machine.execPush d s
  | .pop d => Sys2Proof.Machine.execPop d s
  | .arithA0 ops => Sys2Proof.Machine.execArithA0 ops s
  | .arithA1 ops => Sys2Proof.Machine.execArithA1 ops s
  | .arithA2 ops => Sys2Proof.Machine.execArithA2 ops s
  | .arithA3 ops => Sys2Proof.Machine.execArithA3 ops s
  | .arithA4 ops => Sys2Proof.Machine.execArithA4 ops s
  | .arithA5 ops => Sys2Proof.Machine.execArithA5 ops s
  | .arithA6 ops => Sys2Proof.Machine.execArithA6 ops s
  | .arithA7 ops => Sys2Proof.Machine.execArithA7 ops s
  | .arithA8 ops => Sys2Proof.Machine.execArithA8 ops s
  | .arithA9 ops => Sys2Proof.Machine.execArithA9 ops s
  | .arithAA ops => Sys2Proof.Machine.execArithAA ops s
  | .arithAB ops => Sys2Proof.Machine.execArithAB ops s
  | .arithAC ops => Sys2Proof.Machine.execArithAC ops s
  | .call target => Sys2Proof.Machine.execCall target s
  | .ret => Sys2Proof.Machine.execRet s
  | .nop => Sys2Proof.Machine.execNop s
  | .putchar => Sys2Proof.Machine.execPutchar s
  | .getchar => Sys2Proof.Machine.execGetchar s
  | .printString => Sys2Proof.Machine.execPrintString s
  | .dumpReg0 => Sys2Proof.Machine.execDumpReg0 s
  | .dumpReg1 => Sys2Proof.Machine.execDumpReg1 s
  | .dumpMem => Sys2Proof.Machine.execDumpMem s
  | .dumpRange => Sys2Proof.Machine.execDumpRange s
  | .dumpRegR1 => Sys2Proof.Machine.execDumpRegR1 s
  | .genericDump id => Sys2Proof.Machine.execGenericDump id s
  | .exit => Sys2Proof.Machine.execExit s
  | .fileDump => Sys2Proof.Machine.execFileDump s

end Sys2Proof.Machine
end

