-- ==== Sys2Proof/Machine/HostPort.lean ====
section
/-! DEFINITION. The host control and loading interface (10_state.md R36, R38) with reset, load and run entry (70_reset_and_hazards.md R270 to
R275). The host's pending actions are the list `host` (log 7). -/

namespace Sys2Proof.Machine

/-- The loader contract (R38): every integer lies in [0,256) and programStart + n ≤ 256. -/
def loadOk (start : Byte) (tokens : List Int) : Bool :=
  tokens.all (fun t => decide (0 ≤ t ∧ t < 256)) && decide (start.toNat + tokens.length ≤ 256)

/-- A load that succeeds: programStart upward, one cell an integer (R38). -/
def loadTokens (tokens : List Int) (s : State) : State :=
  storeBytes (tokens.map (BitVec.ofInt 8)) s.programStart { s with loadFailed := false }

/-- A load that fails (R38, R275): memory is unspecified, each cell a free value, and no run may start (log 15). -/
def loadFails (s : State) : State :=
  { s with
    mem        := memOfFn fun a => Config.freeByte (s.draws + a)
    draws      := s.draws + 256
    loadFailed := true }

/-- `Wipe()` (R38, R272): registers and memory zeroed, run Idle, flags and programStart unchanged. The fault fields become
unspecified (R40): free values (log 5). -/
def wipe (s : State) : State :=
  { s with
    regs        := Vector.replicate 16 0x00
    mem         := []
    run         := .idle
    faultReason := faultReasonOf (Config.freeReason s.draws)
    faultPc     := Config.freeByte s.draws
    faultOpcode := Config.freeByte (s.draws + 1)
    draws       := s.draws + 2
    loadFailed  := false
    inString    := false }

/-- `Start()`, the run-entry initialization (R273): pc, sp and the sentinel at 0xFF. -/
def start (s : State) : State :=
  { ((s.setPc s.programStart).setReg spReg 0xFF).store 0xFF s.programStart with run := .running, inString := false }

/-- One host action, while the run is neither Running nor AwaitInput (R38). `Input` is delivered only to a getchar that
waits (60_exceptions.md R247), and a run must not start after a failed load. -/
def hostAct (a : HostAction) (s : State) : Result :=
  match a with
  | .setProgramStart v => .next { s with programStart := v }
  | .setFlags verbose promptOnInput => .next { s with verbose := verbose, promptOnInput := promptOnInput }
  | .loadWrite addr v => .next (s.store addr v)
  | .load tokens => .next (if loadOk s.programStart tokens then loadTokens tokens s else loadFails s)
  | .wipe => .next (wipe s)
  | .start => if s.loadFailed then .fault .startAfterFailedLoad else .next (start s)
  | .input _ => .fault .hostActionNotAllowed

/-- A step while no run is on: the host's next action, or nothing (60_exceptions.md R243; log 9). -/
def hostStep (s : State) : Result :=
  match s.host with
  | [] => .next s
  | a :: rest => hostAct a { s with host := rest }

/-- A step in AwaitInput: `Input(n)` completes the getchar; with nothing pending the run is held (R36; log 9). -/
def awaitStep (s : State) : Result :=
  match s.host with
  | [] => .next s
  | .input n :: rest => .next (completeGetchar n { s with host := rest })
  | .setProgramStart _ :: _ | .setFlags _ _ :: _ | .loadWrite _ _ :: _ | .load _ :: _ | .wipe :: _ | .start :: _ =>
    .fault .hostActionNotAllowed

end Sys2Proof.Machine
end

