-- ==== Sys2Proof/Machine/Step.lean ====
section
/-! DEFINITION. One step of the machine (30_encoding.md R80, 60_exceptions.md R243). -/

namespace Sys2Proof.Machine

/-- A step of the sequencer while the run is Running (R80): trace, fetch, latch, dispatch. A byte that is no opcode raises
InvalidOpcode before any operand byte is read (R78, R246). -/
def runStep (s : State) : Host.Outcome State Fault Refusal :=
  match decode (fetchWindow (latchOperands (traceFetch s))) with
  | .ok i => exec i (latchOperands (traceFetch s))
  | .error _ => .next (raiseFault .invalidOpcode (traceFetch s))

/-- One step. A printString that never ends goes on with its next lap (log 12); while no run is on, or a getchar waits, the
host's next action is taken (log 7). -/
def step (s : State) : Host.Outcome State Fault Refusal :=
  match s.run with
  | .running => if s.inString then .next (printStringNext { s with inString := false }) else runStep s
  | .awaitInput => awaitStep s
  | .idle | .exited | .faulted => hostStep s

/-- `s` with the instruction whose bits are `w` stored at the pc and the run Running, so that the next step fetches and
runs it. It stands for the host's load and `Start()` (log 17). -/
def State.withFetchWord (s : State) (nbits w : Nat) : State :=
  storeBytes (tableWindow nbits w) s.pc { s with run := .running, inString := false }

end Sys2Proof.Machine
end

