-- ==== Sys2Proof/Safety.lean ====
section
/-! DEFINITION. What counts as a safe run, and the terms in which the statements speak: what is left unchanged, what an
instruction's result is, and what a fault leaves. -/

namespace Sys2Proof.Machine

/-! ### Runs -/

/-- A run is over exactly when it has exited or faulted (70_reset_and_hazards.md R276). -/
abbrev Terminal (s : State) : Prop := s.run = .exited ∨ s.run = .faulted

/-- A run is safe while it has not faulted (60_exceptions.md R243). -/
abbrev RunSafe (s : State) : Prop := s.run ≠ .faulted

/-- The host may act: the run is neither Running nor AwaitInput (10_state.md R38). -/
abbrev HostMayAct (s : State) : Prop := s.run = .idle ∨ s.run = .exited ∨ s.run = .faulted

/-- The machine's invariant: memory is in canonical form, and a printString that never ends goes on only in a running
machine, under P_ADDR_OVERFLOW = wrap, over a memory without a zero byte (93_implementation_defined.md I15). -/
def Inv (s : State) : Prop :=
  s.mem.wf = true ∧
  (s.inString = true → s.run = .running ∧ s.params.addrOverflow = .wrap ∧ ∀ a, s.load a ≠ 0)

/-! ### Frames -/

/-- Every register outside `except` is unchanged. -/
def RegsSame (except : List Reg) (s t : State) : Prop := ∀ r, r ∉ except → t.reg r = s.reg r

/-- Every byte of memory is unchanged. -/
def MemSame (s t : State) : Prop := ∀ a, t.load a = s.load a

/-- Every byte of memory outside address `x` is unchanged. -/
def MemSameExcept (x : Byte) (s t : State) : Prop := ∀ a, a ≠ x → t.load a = s.load a

/-- Every field outside the registers, the memory and the events is unchanged: the run state, the fault fields, the flags,
programStart, the latch, the parameters, the host's pending actions and the model's own fields. -/
def RestSame (s t : State) : Prop := t = { s with regs := t.regs, mem := t.mem, events := t.events }

/-! ### Results -/

/-- `bytes`, whatever follows them, decode to `i`. -/
def Decodes (bytes : List Byte) (i : Instr) : Prop := ∀ rest, decode (bytes ++ rest) = .ok i

/-- Under P_ADDR_OVERFLOW = fault, the last of `k` used operand bytes lies past 0xFF (20_memory.md R56). -/
abbrev PastTop (k : Nat) (s : State) : Prop := s.params.addrOverflow = .fault ∧ 0xFF < s.pc.toNat + k

/-- Fault entry (60_exceptions.md R241): registers, memory and every other field are as in `s`. -/
def FaultedFrom (q : FaultReason) (s t : State) : Prop :=
  t = { s with
    run         := .faulted
    faultReason := q
    faultPc     := s.pc
    faultOpcode := s.load s.pc
    events      := s.events ++ [.halt (.faulted q)] }

/-- `i` raises AddressRange where one of its `k` used operand bytes lies past the top; else it answers a next state `t`
with `P t`. -/
def CompletesOrRangeFault (k : Nat) (i : Instr) (s : State) (P : State → Prop) : Prop :=
  (PastTop k s → ∃ t, exec i s = .next t ∧ FaultedFrom .addressRange s t) ∧
  (¬ PastTop k s → ∃ t, exec i s = .next t ∧ P t)

/-- Register `a` receives `v`, and the pc is advanced by `len` (10_state.md R28): where `a` is r15, from the value written, unless
P_PC_WRITE = bypass. No other register changes. -/
def RegWritten (a : Reg) (v len : Byte) (s t : State) : Prop :=
  (a ≠ pcReg → t.reg a = v ∧ t.pc = s.pc + len) ∧
  (a = pcReg → s.params.pcWrite = .advance → t.pc = v + len) ∧
  (a = pcReg → s.params.pcWrite = .bypass → t.pc = v) ∧
  RegsSame [a, pcReg] s t

/-- The result of a sequential instruction that writes one register. -/
def RegResult (a : Reg) (v len : Byte) (s t : State) : Prop :=
  RegWritten a v len s t ∧ MemSame s t ∧ t.events = s.events ∧ RestSame s t

/-- The result of a sequential instruction that stores byte `v` at `addr`. -/
def StoreResult (addr v len : Byte) (s t : State) : Prop :=
  t.load addr = v ∧ MemSameExcept addr s t ∧
  t.pc = s.pc + len ∧ RegsSame [pcReg] s t ∧ t.events = s.events ∧ RestSame s t

/-- The result of a control transfer to `target` that does nothing else. -/
def JumpResult (target : Byte) (s t : State) : Prop :=
  t.pc = target ∧ RegsSame [pcReg] s t ∧ MemSame s t ∧ t.events = s.events ∧ RestSame s t

/-- The result of a sequential instruction that sends the events `es` and does nothing else. -/
def SendResult (es : List Event) (len : Byte) (s t : State) : Prop :=
  t.events = s.events ++ es ∧
  t.pc = s.pc + len ∧ RegsSame [pcReg] s t ∧ MemSame s t ∧ RestSame s t

/-- (address, value) of every cell, in address order (10_state.md R37). -/
def MemSnapshot (s : State) (cells : List (Byte × Byte)) : Prop :=
  cells.length = 256 ∧ ∀ a : Byte, cells[a.toNat]? = some (a, s.load a)

/-- (index, value) of every register, in index order (R37). -/
def RegSnapshot (s : State) (regs : List (Byte × Byte)) : Prop :=
  regs.length = 16 ∧ ∀ r : Reg, regs[r.toNat]? = some (r.setWidth 8, s.reg r)

/-- The cells from `first` to `last` inclusive, ascending if `first ≤ last`, else descending (R37, 46_system_io.md R217). -/
def RangeSnapshot (first last : Byte) (s : State) (cells : List (Byte × Byte)) : Prop :=
  (first.toNat ≤ last.toNat →
    cells.length = last.toNat - first.toNat + 1 ∧
    ∀ i, i < cells.length → cells[i]? = some (first + BitVec.ofNat 8 i, s.load (first + BitVec.ofNat 8 i))) ∧
  (last.toNat < first.toNat →
    cells.length = first.toNat - last.toNat + 1 ∧
    ∀ i, i < cells.length → cells[i]? = some (first - BitVec.ofNat 8 i, s.load (first - BitVec.ofNat 8 i)))

/-- The events of the Diagnostic Dispatch for `id` (46_system_io.md R222). -/
def DumpSpec (id : Byte) (s : State) (es : List Event) : Prop :=
  (id.toNat < 0x10 → es = [.dumpReg id (s.reg (id.setWidth 4))]) ∧
  (0x10 ≤ id.toNat → id.toNat ≤ 0xFC → es = []) ∧
  (id = 0xFD → ∃ cells regs, MemSnapshot s cells ∧ RegSnapshot s regs ∧ es = [.dumpMem cells, .dumpRegs regs]) ∧
  (id = 0xFE → ∃ cells, MemSnapshot s cells ∧ es = [.dumpMem cells]) ∧
  (id = 0xFF → ∃ regs, RegSnapshot s regs ∧ es = [.dumpRegs regs])

/-- The first `n` characters of the string after the opcode of the printString at A, addresses mod 256. -/
def stringChars (s : State) (n : Nat) : List Event :=
  (List.range n).map fun j => .char (s.load (s.pc + 1 + BitVec.ofNat 8 j))

/-- `i` executed `k` times in a row, while it answers next states. -/
def execTimes (i : Instr) : Nat → State → Option State
  | 0, s => some s
  | k + 1, s =>
    match execTimes i k s with
    | none => none
    | some t =>
      match exec i t with
      | .next u => some u
      | .fault _ => none
      | .refused _ => none

/-! ### The add/sub family -/

/-- The instruction of an add/sub opcode. -/
def arithInstr (op : ArithOp) (ops : List Byte) : Instr :=
  match op with
  | .a0 => .arithA0 ops
  | .a1 => .arithA1 ops
  | .a2 => .arithA2 ops
  | .a3 => .arithA3 ops
  | .a4 => .arithA4 ops
  | .a5 => .arithA5 ops
  | .a6 => .arithA6 ops
  | .a7 => .arithA7 ops
  | .a8 => .arithA8 ops
  | .a9 => .arithA9 ops
  | .aa => .arithAA ops
  | .ab => .arithAB ops
  | .ac => .arithAC ops

/-- The opcode byte of an add/sub opcode (44_add_sub.md R181 to R193). -/
def arithOpcode (op : ArithOp) : Byte :=
  match op with
  | .a0 => 0xA0
  | .a1 => 0xA1
  | .a2 => 0xA2
  | .a3 => 0xA3
  | .a4 => 0xA4
  | .a5 => 0xA5
  | .a6 => 0xA6
  | .a7 => 0xA7
  | .a8 => 0xA8
  | .a9 => 0xA9
  | .aa => 0xAA
  | .ab => 0xAB
  | .ac => 0xAC

/-- A value that ARITH may combine: a register, a memory byte, or a literal of a used operand byte (R180 (a)). -/
def ArithAtom (nOps : Nat) (ops : List Byte) (s : State) (v : Byte) : Prop :=
  (∃ r, v = s.reg r) ∨ (∃ a, v = s.load a) ∨
  ∃ k b, k < nOps ∧ ops[k]? = some b ∧ (v = b ∨ v = (hi b).setWidth 8 ∨ v = (lo b).setWidth 8)

/-- The last value that the writes give to register `r`, else `old`. -/
def lastRegWrite (r : Reg) : List (ArithDest × Byte) → Byte → Byte
  | [], old => old
  | (.reg i, v) :: rest, old => lastRegWrite r rest (if r.toNat = i.val then v else old)
  | (.mem _, _) :: rest, old => lastRegWrite r rest old

/-- The last value that the writes give to the cell at `a`, else `old`. -/
def lastMemWrite (a : Byte) : List (ArithDest × Byte) → Byte → Byte
  | [], old => old
  | (.mem x, v) :: rest, old => lastMemWrite a rest (if a = x then v else old)
  | (.reg _, _) :: rest, old => lastMemWrite a rest old

/-! ### The opcode map -/

/-- The invalid opcode bytes (30_encoding.md R78), by their ranges. -/
abbrev InvalidByte (op : Byte) : Prop :=
  (0x19 ≤ op.toNat ∧ op.toNat ≤ 0x1F) ∨ (0x21 ≤ op.toNat ∧ op.toNat ≤ 0x2F) ∨
  (0x31 ≤ op.toNat ∧ op.toNat ≤ 0x3F) ∨ (0x41 ≤ op.toNat ∧ op.toNat ≤ 0x4F) ∨
  (0x54 ≤ op.toNat ∧ op.toNat ≤ 0x6F) ∨ (0x79 ≤ op.toNat ∧ op.toNat ≤ 0x7F) ∨
  (0xAD ≤ op.toNat ∧ op.toNat ≤ 0xC1) ∨ (0xC4 ≤ op.toNat ∧ op.toNat ≤ 0xCF) ∨
  (0xD1 ≤ op.toNat ∧ op.toNat ≤ 0xDF) ∨ (0xE3 ≤ op.toNat ∧ op.toNat ≤ 0xE7) ∨
  (0xF0 ≤ op.toNat ∧ op.toNat ≤ 0xFF)

/-- The opcode byte of a push (43_stack.md R170). -/
abbrev PushByte (op : Byte) : Prop := 0x80 ≤ op.toNat ∧ op.toNat ≤ 0x8F

/-- The opcode byte of a pop (R171). -/
abbrev PopByte (op : Byte) : Prop := 0x90 ≤ op.toNat ∧ op.toNat ≤ 0x9F

/-- The opcode byte of the add/sub family (44_add_sub.md R180). -/
abbrev ArithByte (op : Byte) : Prop := 0xA0 ≤ op.toNat ∧ op.toNat ≤ 0xAC

/-! ### The diagnostic channel -/

/-- An event of the character-output channel (10_state.md R35). -/
def isCharEvent : Event → Bool
  | .char _ | .prompt => true
  | .dumpReg _ _ | .dumpRegs _ | .dumpMem _ | .dumpRange _ _ _ | .fileSnapshot _ _ | .trace _ _ | .halt _ => false

/-- `s` and `t` differ in the diagnostic events and the flag `verbose` only (R37). -/
def DiagEquiv (s t : State) : Prop :=
  t = { s with verbose := t.verbose, events := t.events } ∧
  t.events.filter isCharEvent = s.events.filter isCharEvent

/-- Two outcomes that differ in the diagnostic events and the flag `verbose` only. -/
def DiagEquivOutcome : Result → Result → Prop
  | .next s, .next t => DiagEquiv s t
  | .fault q, .fault r => q = r
  | .refused q, .refused r => q = r
  | .next _, .fault _ | .next _, .refused _ | .fault _, .next _ => False
  | .fault _, .refused _ | .refused _, .next _ | .refused _, .fault _ => False

end Sys2Proof.Machine
end

