-- ==== Sys2Proof/Certificates/Slice0/Obligations.lean ====
section
/-! DEFINITION. The statements for the provers. Each docstring names the rule of spec/ it formalises; the terms are those of
Safety.lean. -/

open Sys2Proof Sys2Proof.Machine

/-! ## Encoding, decoding and the step -/

/-- 30_encoding.md R72, R73, R77: decoding the encoding of a well-formed instruction, whatever follows it, gives it back. -/
def Obligations.DecodeOfEncode : Prop :=
  ∀ (i : Instr) (rest : List Byte), wellFormed i = true → decode (encode i ++ rest) = .ok i

/-- R73, R79: what a fetch window decodes to is well-formed and its encoding is the head of the window. -/
def Obligations.EncodeOfDecode : Prop :=
  ∀ (op n1 n2 n3 : Byte) (i : Instr), decode [op, n1, n2, n3] = .ok i →
    wellFormed i = true ∧ encode i <+: [op, n1, n2, n3]

/-- R77, R78: the decoder rejects an opcode byte as invalid, whatever operand bytes follow, exactly for the 156 listed. -/
def Obligations.InvalidBytesAreExactlyThoseListed : Prop :=
  ∀ (op : Byte) (rest : List Byte), decode (op :: rest) = .error (.invalidOpcode op) ↔ InvalidByte op

/-- R78, R80, 60_exceptions.md R240, R246: fetching an invalid opcode byte raises InvalidOpcode, at any address and whatever the operand
bytes; registers and memory are unchanged. -/
def Obligations.InvalidOpcodeFaults : Prop :=
  ∀ s : State, s.run = .running → s.inString = false → InvalidByte (s.load s.pc) →
    ∃ t, step s = .next t ∧
      FaultedFrom .invalidOpcode
        { s with events := if s.verbose then s.events ++ [.trace s.pc (s.load s.pc)] else s.events } t

/-- R73, R77: words written out from the spec's encodings, one or more for each family. -/
def Obligations.SampleWordsDecode : Prop :=
  decode [0b00000101, 0xFF] = .ok (.movImmediate 5 0xFF) ∧
  decode [0b00010010, 0b00100001] = .ok (.storeIndirect 2 1) ∧
  decode [0b00010100, 0b00100011, 0x7F] = .ok (.movPair 2 3 0x7F) ∧
  decode [0b00010110, 0b01010011] = .ok (.decImm 5 3) ∧
  decode [0b01000000, 0b00010010] = .ok (.xor 1 2) ∧
  decode [0b01010011, 0b00010010] = .ok (.ror 1 2) ∧
  decode [0b01110001, 0b00010010, 0x04] = .ok (.jl 1 2 0x04) ∧
  decode [0b01110111, 0b00010011] = .ok (.skipIfNZ 1 3) ∧
  decode [0b10001110] = .ok (.push 14) ∧
  decode [0b10011111] = .ok (.pop 15) ∧
  decode [0b10101100, 1, 2, 3] = .ok (.arithAC [1, 2, 3]) ∧
  decode [0b11000010, 0x07] = .ok (.call 0x07) ∧
  decode [0b11000011] = .ok .ret ∧
  decode [0b11101101, 0x05] = .ok (.genericDump 0x05) ∧
  decode [0b11101110] = .ok .exit

/-- R70, R80: a step of a running machine runs the instruction that the bytes at pc decode to. Before it runs, the operand
bytes are latched and, if `verbose`, a trace event is sent; nothing else changes. (That all three are latched, at addresses
mod 256, is the model's choice, log 6.) -/
def Obligations.StepRunsDecodedInstruction : Prop :=
  ∀ (s : State) (i : Instr), s.run = .running → s.inString = false →
    decode [s.load s.pc, s.load (s.pc + 1), s.load (s.pc + 2), s.load (s.pc + 3)] = .ok i →
    wellFormed i = true →
    step s = exec i { s with
      latch  := ⟨s.load (s.pc + 1), s.load (s.pc + 2), s.load (s.pc + 3)⟩
      events := if s.verbose then s.events ++ [.trace s.pc (s.load s.pc)] else s.events }

/-- R71: an operand byte that an instruction does not use has no effect: the decoder needs no byte beyond the used ones
(printString and the add/sub family apart), the add/sub family's meanings read no operand byte beyond ARITH's, and no
meaning reads or writes the operand latch. -/
def Obligations.UnusedOperandBytesHaveNoEffect : Prop :=
  (∀ (bytes rest : List Byte) (i : Instr) (k : Nat), decode bytes = .ok i → usedOperands i = some k →
    decode (bytes.take (k + 1) ++ rest) = .ok i) ∧
  (∀ (op : ArithOp) (ops ops' : List Byte) (s : State),
    ops.take (Config.arith op).nOps.val = ops'.take (Config.arith op).nOps.val →
    exec (arithInstr op ops) s = exec (arithInstr op ops') s) ∧
  (∀ (i : Instr) (s t : State) (l : Latch), exec i s = .next t →
    t.latch = s.latch ∧ exec i { s with latch := l } = .next { t with latch := l })

/-! ## Moves (40_register_memory.md) -/

/-- R100. -/
def Obligations.MovImmediateResult : Prop :=
  ∀ (d : Reg) (imm : Byte) (s : State),
    Decodes [0b0000#4 ++ d, imm] (.movImmediate d imm) ∧
    CompletesOrRangeFault 1 (.movImmediate d imm) s fun t =>
      (d = pcReg → JumpResult imm s t) ∧ (d ≠ pcReg → RegResult d imm 2 s t)

/-- R101. -/
def Obligations.MovRegRegResult : Prop :=
  ∀ (a b : Reg) (s : State),
    Decodes [0b00010000, a ++ b] (.movRegReg a b) ∧
    CompletesOrRangeFault 1 (.movRegReg a b) s (RegResult a (s.reg b) 2 s)

/-- R102. -/
def Obligations.LoadIndirectResult : Prop :=
  ∀ (a b : Reg) (s : State),
    Decodes [0b00010001, a ++ b] (.loadIndirect a b) ∧
    CompletesOrRangeFault 1 (.loadIndirect a b) s (RegResult a (s.load (s.reg b)) 2 s)

/-- R103: the byte is stored at x[a]. -/
def Obligations.StoreIndirectResult : Prop :=
  ∀ (a b : Reg) (s : State), s.mem.wf = true →
    Decodes [0b00010010, a ++ b] (.storeIndirect a b) ∧
    CompletesOrRangeFault 1 (.storeIndirect a b) s (StoreResult (s.reg a) (s.reg b) 2 s)

/-- R104: the byte at x[b] is stored at x[a]. -/
def Obligations.CopyIndirectResult : Prop :=
  ∀ (a b : Reg) (s : State), s.mem.wf = true →
    Decodes [0b00010011, a ++ b] (.copyIndirect a b) ∧
    CompletesOrRangeFault 1 (.copyIndirect a b) s (StoreResult (s.reg a) (s.load (s.reg b)) 2 s)

/-- R105. -/
def Obligations.MovPairResult : Prop :=
  ∀ (a b : Reg) (imm : Byte) (s : State),
    Decodes [0b00010100, a ++ b, imm] (.movPair a b imm) ∧
    CompletesOrRangeFault 2 (.movPair a b imm) s fun t =>
      (a ≠ pcReg → t.reg a = imm) ∧ (b ≠ pcReg → t.reg b = imm) ∧
      (a ≠ pcReg → b ≠ pcReg → t.pc = s.pc + 3) ∧
      (a = pcReg ∨ b = pcReg → s.params.pcWrite = .advance → t.pc = imm + 3) ∧
      (a = pcReg ∨ b = pcReg → s.params.pcWrite = .bypass → t.pc = imm) ∧
      RegsSame [a, b, pcReg] s t ∧ MemSame s t ∧ t.events = s.events ∧ RestSame s t

/-- R106, R107: incImm and decImm add and subtract the literal mod 256. -/
def Obligations.IncDecResult : Prop :=
  ∀ (a : Reg) (n : Nibble) (s : State),
    Decodes [0b00010101, a ++ n] (.incImm a n) ∧
    Decodes [0b00010110, a ++ n] (.decImm a n) ∧
    CompletesOrRangeFault 1 (.incImm a n) s
      (RegResult a (BitVec.ofNat 8 (((s.reg a).toNat + n.toNat) % 256)) 2 s) ∧
    CompletesOrRangeFault 1 (.decImm a n) s
      (RegResult a (BitVec.ofInt 8 ((((s.reg a).toNat : Int) - n.toNat) % 256)) 2 s)

/-- R108, R109: pcOffset+ and pcOffset- write A plus and minus the literal, mod 256. -/
def Obligations.PcOffsetResult : Prop :=
  ∀ (a : Reg) (n : Nibble) (s : State),
    Decodes [0b00010111, a ++ n] (.pcOffsetPlus a n) ∧
    Decodes [0b00011000, a ++ n] (.pcOffsetMinus a n) ∧
    CompletesOrRangeFault 1 (.pcOffsetPlus a n) s
      (RegResult a (BitVec.ofNat 8 ((s.pc.toNat + n.toNat) % 256)) 2 s) ∧
    CompletesOrRangeFault 1 (.pcOffsetMinus a n) s
      (RegResult a (BitVec.ofInt 8 (((s.pc.toNat : Int) - n.toNat) % 256)) 2 s)

/-! ## Logic, shifts and rotates (41_logic_shift.md) -/

/-- R130, R131, R132, bit by bit. -/
def Obligations.LogicResult : Prop :=
  ∀ (a b : Reg) (s : State),
    Decodes [0b00100000, a ++ b] (.and a b) ∧
    Decodes [0b00110000, a ++ b] (.or a b) ∧
    Decodes [0b01000000, a ++ b] (.xor a b) ∧
    (∃ v : Byte, (∀ j, v.getLsbD j = ((s.reg a).getLsbD j && (s.reg b).getLsbD j)) ∧
      CompletesOrRangeFault 1 (.and a b) s (RegResult a v 2 s)) ∧
    (∃ v : Byte, (∀ j, v.getLsbD j = ((s.reg a).getLsbD j || (s.reg b).getLsbD j)) ∧
      CompletesOrRangeFault 1 (.or a b) s (RegResult a v 2 s)) ∧
    (∃ v : Byte, (∀ j, v.getLsbD j = ((s.reg a).getLsbD j ^^ (s.reg b).getLsbD j)) ∧
      CompletesOrRangeFault 1 (.xor a b) s (RegResult a v 2 s))

/-- R133, R134: shl multiplies by 2^s; shr does the same under P_SHR = reference_left and divides under logical_right; s is
x[b] mod 8. -/
def Obligations.ShiftResult : Prop :=
  ∀ (a b : Reg) (s : State),
    Decodes [0b01010000, a ++ b] (.shl a b) ∧
    Decodes [0b01010001, a ++ b] (.shr a b) ∧
    CompletesOrRangeFault 1 (.shl a b) s
      (RegResult a (BitVec.ofNat 8 ((s.reg a).toNat * 2 ^ ((s.reg b).toNat % 8) % 256)) 2 s) ∧
    (s.params.shr = .referenceLeft → CompletesOrRangeFault 1 (.shr a b) s
      (RegResult a (BitVec.ofNat 8 ((s.reg a).toNat * 2 ^ ((s.reg b).toNat % 8) % 256)) 2 s)) ∧
    (s.params.shr = .logicalRight → CompletesOrRangeFault 1 (.shr a b) s
      (RegResult a (BitVec.ofNat 8 ((s.reg a).toNat / 2 ^ ((s.reg b).toNat % 8))) 2 s))

/-- R135, R136: rol and ror rotate by x[b] mod 8; under P_ROT = draw with a ≠ 0 the register receives some byte, which no
rule names (nor does the statement say how many free values the model has drawn, log 13). -/
def Obligations.RotateResult : Prop :=
  ∀ (a b : Reg) (s : State),
    Decodes [0b01010010, a ++ b] (.rol a b) ∧
    Decodes [0b01010011, a ++ b] (.ror a b) ∧
    (s.params.rot = .nibble ∨ a = 0 →
      CompletesOrRangeFault 1 (.rol a b) s
        (RegResult a (BitVec.ofNat 8 (((s.reg a).toNat * 2 ^ ((s.reg b).toNat % 8) % 256) |||
          ((s.reg a).toNat / 2 ^ (8 - (s.reg b).toNat % 8)))) 2 s) ∧
      CompletesOrRangeFault 1 (.ror a b) s
        (RegResult a (BitVec.ofNat 8 (((s.reg a).toNat / 2 ^ ((s.reg b).toNat % 8)) |||
          ((s.reg a).toNat * 2 ^ (8 - (s.reg b).toNat % 8) % 256))) 2 s)) ∧
    (s.params.rot = .draw → a ≠ 0 → ∀ i ∈ [Instr.rol a b, Instr.ror a b],
      CompletesOrRangeFault 1 i s fun t =>
        ∃ (v : Byte) (d : Nat), RegResult a v 2 { s with draws := d } t)

/-- R136: rotating right by s equals rotating left by 8 - s, for s in 1 to 7 (P_ROT = nibble). -/
def Obligations.RorIsRolOfTheRest : Prop :=
  ∀ (a b c : Reg) (s t u : State), s.params.rot = .nibble → ¬ PastTop 1 s →
    (s.reg b).toNat % 8 ≠ 0 → (s.reg c).toNat % 8 = 8 - (s.reg b).toNat % 8 →
    exec (.ror a b) s = .next t → exec (.rol a c) s = .next u → t = u

/-! ## Jumps and skips (42_branch.md) -/

/-- R150. -/
def Obligations.JmpResult : Prop :=
  ∀ (target : Byte) (s : State),
    Decodes [0b01110000, target] (.jmp target) ∧
    CompletesOrRangeFault 1 (.jmp target) s (JumpResult target s)

/-- R151 to R157: a conditional jump goes to its target if the unsigned relation holds, else past its 3 bytes (P_NOT_TAKEN =
length) or to A + 2 (literal). -/
def Obligations.CondJumpResult : Prop :=
  ∀ (a b : Reg) (target : Byte) (s : State),
    ∀ c ∈ [((0b01110001 : Byte), Instr.jl a b target, decide ((s.reg a).toNat < (s.reg b).toNat)),
           (0b01110010, Instr.jle a b target, decide ((s.reg a).toNat ≤ (s.reg b).toNat)),
           (0b01110011, Instr.je a b target, decide ((s.reg a).toNat = (s.reg b).toNat)),
           (0b01110100, Instr.jge a b target, decide ((s.reg a).toNat ≥ (s.reg b).toNat)),
           (0b01110101, Instr.jg a b target, decide ((s.reg a).toNat > (s.reg b).toNat)),
           (0b01110110, Instr.jne a b target, decide ((s.reg a).toNat ≠ (s.reg b).toNat))],
      Decodes [c.1, a ++ b, target] c.2.1 ∧
      CompletesOrRangeFault 2 c.2.1 s fun t =>
        (c.2.2 = true → JumpResult target s t) ∧
        (c.2.2 = false → s.params.notTaken = .length → JumpResult (s.pc + 3) s t) ∧
        (c.2.2 = false → s.params.notTaken = .literal → JumpResult (s.pc + 2) s t)

/-- R158, R159: a skip goes n bytes past its 2 bytes if the register is not zero (skipIfNZ) or zero (skipIfZ), else past its
2 bytes (P_NOT_TAKEN = length) or to A + 1 (literal). -/
def Obligations.SkipResult : Prop :=
  ∀ (a : Reg) (n : Nibble) (s : State),
    ∀ c ∈ [((0b01110111 : Byte), Instr.skipIfNZ a n, decide ((s.reg a).toNat ≠ 0)),
           (0b01111000, Instr.skipIfZ a n, decide ((s.reg a).toNat = 0))],
      Decodes [c.1, a ++ n] c.2.1 ∧
      CompletesOrRangeFault 1 c.2.1 s fun t =>
        (c.2.2 = true → JumpResult (BitVec.ofNat 8 ((s.pc.toNat + n.toNat + 2) % 256)) s t) ∧
        (c.2.2 = false → s.params.notTaken = .length → JumpResult (s.pc + 2) s t) ∧
        (c.2.2 = false → s.params.notTaken = .literal → JumpResult (s.pc + 1) s t)

/-! ## The stack (43_stack.md, 45_call_return.md) -/

/-- R170: push faults at sp = 0x00; else it stores the register's value from before the instruction at sp - 1. -/
def Obligations.PushResult : Prop :=
  ∀ (d : Reg) (s : State), s.mem.wf = true →
    Decodes [0b1000#4 ++ d] (.push d) ∧
    (s.sp = 0x00 → ∃ t, exec (.push d) s = .next t ∧ FaultedFrom .stackOverflow s t) ∧
    (s.sp ≠ 0x00 → ∃ t, exec (.push d) s = .next t ∧
      t.sp = s.sp - 1 ∧ t.load (s.sp - 1) = s.reg d ∧ MemSameExcept (s.sp - 1) s t ∧
      t.pc = s.pc + 1 ∧ RegsSame [spReg, pcReg] s t ∧ t.events = s.events ∧ RestSame s t)

/-- R171: pop faults at sp = 0xFF; else the register receives the byte at sp, last; into r15 it is a control transfer. -/
def Obligations.PopResult : Prop :=
  ∀ (d : Reg) (s : State),
    Decodes [0b1001#4 ++ d] (.pop d) ∧
    (s.sp = 0xFF → ∃ t, exec (.pop d) s = .next t ∧ FaultedFrom .stackUnderflow s t) ∧
    (s.sp ≠ 0xFF → ∃ t, exec (.pop d) s = .next t ∧
      t.reg d = s.load s.sp ∧ (d ≠ pcReg → t.pc = s.pc + 1) ∧ (d ≠ spReg → t.sp = s.sp + 1) ∧
      RegsSame [d, spReg, pcReg] s t ∧ MemSame s t ∧ t.events = s.events ∧ RestSame s t)

/-- R200: call; AddressRange comes before the stack check (60_exceptions.md R246). -/
def Obligations.CallResult : Prop :=
  ∀ (target : Byte) (s : State), s.mem.wf = true →
    Decodes [0b11000010, target] (.call target) ∧
    (PastTop 1 s → ∃ t, exec (.call target) s = .next t ∧ FaultedFrom .addressRange s t) ∧
    (¬ PastTop 1 s → s.sp = 0x00 → ∃ t, exec (.call target) s = .next t ∧ FaultedFrom .stackOverflow s t) ∧
    (¬ PastTop 1 s → s.sp ≠ 0x00 → ∃ t, exec (.call target) s = .next t ∧
      t.pc = target ∧ t.sp = s.sp - 1 ∧ t.load (s.sp - 1) = s.pc + 2 ∧ MemSameExcept (s.sp - 1) s t ∧
      RegsSame [spReg, pcReg] s t ∧ t.events = s.events ∧ RestSame s t)

/-- R201: ret, the same as pop r15. -/
def Obligations.RetResult : Prop :=
  ∀ s : State,
    Decodes [0b11000011] .ret ∧
    (s.sp = 0xFF → ∃ t, exec .ret s = .next t ∧ FaultedFrom .stackUnderflow s t) ∧
    (s.sp ≠ 0xFF → ∃ t, exec .ret s = .next t ∧
      t.pc = s.load s.sp ∧ t.sp = s.sp + 1 ∧
      RegsSame [spReg, pcReg] s t ∧ MemSame s t ∧ t.events = s.events ∧ RestSame s t) ∧
    exec .ret s = exec (.pop pcReg) s

/-- R201 (95_test_vectors.md S4): a call and then a ret at its target goes to the byte after the call, every other
register, the events and every other field as before, memory but for the return-address byte. -/
def Obligations.CallThenRet : Prop :=
  ∀ (target : Byte) (s : State), s.mem.wf = true → ¬ PastTop 1 s → s.sp ≠ 0x00 →
    ∃ t u, exec (.call target) s = .next t ∧ t.pc = target ∧ exec .ret t = .next u ∧
      u.pc = s.pc + 2 ∧ RegsSame [pcReg] s u ∧ MemSameExcept (s.sp - 1) s u ∧ u.events = s.events ∧ RestSame s u

/-- R170 (S3): from sp = 0xFF, 255 pushes in a row succeed, the k-th leaving sp = 0xFF - k, and the 256th faults. -/
def Obligations.PushesUntilFull : Prop :=
  ∀ (d : Reg) (s : State), s.sp = 0xFF →
    (∀ k, k ≤ 255 → ∃ t, execTimes (.push d) k s = some t ∧ t.sp = 0xFF - BitVec.ofNat 8 k ∧
      t.pc = s.pc + BitVec.ofNat 8 k ∧ RegsSame [spReg, pcReg] s t ∧ RestSame s t ∧ t.events = s.events) ∧
    ∀ t, execTimes (.push d) 255 s = some t →
      ∃ u, exec (.push d) t = .next u ∧ FaultedFrom .stackOverflow t u

/-! ## The add/sub family (44_add_sub.md) -/

/-- R180 (absent): the opcodes are refused before any operand byte is checked; (present, as the
model's opaque table, log 2): a used operand byte past the top raises AddressRange. -/
def Obligations.ArithRefusalAndRangeFault : Prop :=
  ∀ (op : ArithOp) (n1 n2 n3 : Byte) (s : State),
    Decodes [arithOpcode op, n1, n2, n3] (arithInstr op [n1, n2, n3]) ∧
    (s.params.arithGiven = false → exec (arithInstr op [n1, n2, n3]) s = .refused .arithUnspecified) ∧
    (s.params.arithGiven = true → PastTop (Config.arith op).nOps.val s →
      ∃ t, exec (arithInstr op [n1, n2, n3]) s = .next t ∧ FaultedFrom .addressRange s t)

/-- R180 (c), (d) (the table is the model's opaque parameter, log 2): the writes of ARITH are applied in list order, the pc is
advanced by the entry's length, 1 to 4, and nothing else changes. -/
def Obligations.ArithResult : Prop :=
  ∀ (op : ArithOp) (ops : List Byte) (s : State), wellFormed (arithInstr op ops) = true →
    s.mem.wf = true → s.params.arithGiven = true → ¬ PastTop (Config.arith op).nOps.val s →
    ∃ t, exec (arithInstr op ops) s = .next t ∧
      t.pc = s.pc + BitVec.ofNat 8 ((Config.arith op).nOps.val + 1) ∧
      (∀ r, r ≠ pcReg → t.reg r = lastRegWrite r (arithWrites (Config.arith op) ops s) (s.reg r)) ∧
      (∀ a, t.load a = lastMemWrite a (arithWrites (Config.arith op) ops s) (s.load a)) ∧
      t.events = s.events ∧ RestSame s t

/-- R180 (a): every value that an entry writes is u + w or u - w mod 256, each of u and w a register, a memory byte or a literal
of a used operand byte, read before any write. -/
def Obligations.ArithValuesAreSumsOrDifferences : Prop :=
  ∀ (e : ArithEntry) (ops : List Byte) (s : State), ops.length = 3 →
    ∀ d v, (d, v) ∈ arithWrites e ops s →
      ∃ u w, ArithAtom e.nOps.val ops s u ∧ ArithAtom e.nOps.val ops s w ∧
        (v = BitVec.ofNat 8 ((u.toNat + w.toNat) % 256) ∨ v = BitVec.ofInt 8 (((u.toNat : Int) - w.toNat) % 256))

/-! ## No-op, I/O, diagnostics, exit (46_system_io.md) -/

/-- R210, R211, R214, R215: nop sends nothing, putchar sends r1, dumpReg0 and dumpReg1 report r0 and r1. -/
def Obligations.SendingResult : Prop :=
  ∀ (s : State),
    ∀ c ∈ [((0b11010000 : Byte), Instr.nop, []), (0b11100000, .putchar, [Event.char (s.reg 1)]),
           (0b11101000, .dumpReg0, [.dumpReg 0 (s.reg 0)]), (0b11101001, .dumpReg1, [.dumpReg 1 (s.reg 1)])],
      Decodes [c.1] c.2.1 ∧ ∃ t, exec c.2.1 s = .next t ∧ SendResult c.2.2 1 s t

/-- R212: getchar sends the prompt if asked for and waits, pc at A; the host's integer completes it. That the wait and the
completion are two steps is the model's reading of 60_exceptions.md R243 (log 16); that a wait with nothing pending leaves the state
as it is is the model's choice (log 9). -/
def Obligations.GetcharWaitsAndCompletes : Prop :=
  Decodes [0b11100001] .getchar ∧
  (∀ s : State, ∃ t, exec .getchar s = .next t ∧ t.run = .awaitInput ∧
    t.events = s.events ++ (if s.promptOnInput then [.prompt] else []) ∧
    RegsSame [] s t ∧ MemSame s t ∧ RestSame { s with run := .awaitInput } t) ∧
  (∀ (s : State) (n : Int) (rest : List HostAction), s.run = .awaitInput → s.host = .input n :: rest →
    ∃ t, step s = .next t ∧ t.run = .running ∧ ((t.reg 0).toNat : Int) = n % 256 ∧ t.pc = s.pc + 1 ∧
      RegsSame [0, pcReg] s t ∧ MemSame s t ∧ t.events = s.events ∧
      RestSame { s with run := .running, host := rest } t) ∧
  (∀ s : State, s.run = .awaitInput → s.host = [] → step s = .next s)

/-- R213, a string of n characters: they are sent in order and the pc is left at the zero byte, or after it. -/
def Obligations.PrintStringResult : Prop :=
  ∀ (s : State) (n : Nat), n ≤ 255 → (s.params.addrOverflow = .wrap ∨ s.pc.toNat + 1 + n ≤ 0xFF) →
    (∀ j, j < n → s.load (s.pc + 1 + BitVec.ofNat 8 j) ≠ 0) → s.load (s.pc + 1 + BitVec.ofNat 8 n) = 0 →
    Decodes [0b11100010] .printString ∧
    ∃ t, exec .printString s = .next t ∧ t.events = s.events ++ stringChars s n ∧
      (s.params.putsEnd = .atZero → t.pc = s.pc + 1 + BitVec.ofNat 8 n) ∧
      (s.params.putsEnd = .afterZero → t.pc = s.pc + 1 + BitVec.ofNat 8 n + 1) ∧
      RegsSame [pcReg] s t ∧ MemSame s t ∧ RestSame s t

/-- R213, R241: a string without a zero byte up to 0xFF raises AddressRange under P_ADDR_OVERFLOW = fault; its characters
stay sent. -/
def Obligations.PrintStringPastTopFaults : Prop :=
  ∀ s : State, s.params.addrOverflow = .fault →
    (∀ j, s.pc.toNat + 1 + j ≤ 0xFF → s.load (s.pc + 1 + BitVec.ofNat 8 j) ≠ 0) →
    ∃ t, exec .printString s = .next t ∧
      FaultedFrom .addressRange { s with events := s.events ++ stringChars s (0xFF - s.pc.toNat) } t

/-- R213, 93_implementation_defined.md I15 (log 12: the model sends 256 characters a step): under wrap, with no zero byte in memory,
printString never ends: every step sends the next 256 characters and changes nothing else. -/
def Obligations.PrintStringNeverEnds : Prop :=
  ∀ s : State, s.params.addrOverflow = .wrap → (∀ a, s.load a ≠ 0) →
    exec .printString s = .next { s with events := s.events ++ stringChars s 256, inString := true } ∧
    (s.run = .running → s.inString = true →
      step s = .next { s with events := s.events ++ stringChars s 256 })

/-- R216, R217, R221: the snapshots of memory, of a range and of everything. That a FileSnapshot carries two lists, the cells
in address order and the registers in index order, is the model's choice (log 23). -/
def Obligations.SnapshotResult : Prop :=
  Decodes [0b11101010] .dumpMem ∧ Decodes [0b11101011] .dumpRange ∧ Decodes [0b11101111] .fileDump ∧
  ∀ s : State,
    (∃ t cells, exec .dumpMem s = .next t ∧ MemSnapshot s cells ∧ SendResult [.dumpMem cells] 1 s t) ∧
    (∃ t cells, exec .dumpRange s = .next t ∧ RangeSnapshot (s.reg 1) (s.reg 2) s cells ∧
      SendResult [.dumpRange (s.reg 1) (s.reg 2) cells] 1 s t) ∧
    (∃ t cells regs, exec .fileDump s = .next t ∧ MemSnapshot s cells ∧ RegSnapshot s regs ∧
      SendResult [.fileSnapshot cells regs] 1 s t)

/-- R218: dumpRegR1 reports the register whose index is in r1; where r1 is 16 or more, some value. -/
def Obligations.DumpRegR1Result : Prop :=
  Decodes [0b11101100] .dumpRegR1 ∧
  ∀ s : State, ∃ t v, exec .dumpRegR1 s = .next t ∧ SendResult [.dumpReg (s.reg 1) v] 1 s t ∧
    ((s.reg 1).toNat < 16 → v = s.reg ((s.reg 1).setWidth 4))

/-- R219, R222: genericDump dispatches on its id; an id outside the table sends nothing. -/
def Obligations.GenericDumpResult : Prop :=
  ∀ (id : Byte) (s : State),
    Decodes [0b11101101, id] (.genericDump id) ∧
    CompletesOrRangeFault 1 (.genericDump id) s fun t => ∃ es, DumpSpec id s es ∧ SendResult es 2 s t

/-- R220, 10_state.md R39: exit ends the run with result x[0]; pc stays at A and no register or memory cell changes. -/
def Obligations.ExitResult : Prop :=
  Decodes [0b11101110] .exit ∧
  ∀ s : State, ∃ t, exec .exit s = .next t ∧ t.run = .exited ∧ t.status = .exited ∧ t.result = some (s.reg 0) ∧
    t.events = s.events ++ [.halt .exited] ∧ RegsSame [] s t ∧ MemSame s t ∧ RestSame { s with run := .exited } t

/-! ## Faults and the run state (60_exceptions.md) -/

/-- R241, R244: a step of a running machine that ends in Faulted changes no register and no memory cell, records A and the
opcode byte at A, sends `Halt` last, and its result is x[0]. -/
def Obligations.FaultsArePrecise : Prop :=
  ∀ s t : State, s.run = .running → step s = .next t → t.run = .faulted →
    RegsSame [] s t ∧ MemSame s t ∧ t.faultPc = s.pc ∧ t.faultOpcode = s.load s.pc ∧
    (∃ es, t.events = s.events ++ es ++ [.halt (.faulted t.faultReason)]) ∧
    t.status = .faulted t.faultReason s.pc (s.load s.pc) ∧ t.result = some (s.reg 0)

/-- R240: each fault has its one cause. (For the add/sub family the count of used operand bytes is that
of ARITH, the model's opaque table, log 2. Inv is the model's, logs 12 and 18.) -/
def Obligations.FaultsHaveTheirCause : Prop :=
  ∀ s t : State, Inv s → s.run = .running → step s = .next t → t.run = .faulted →
    (t.faultReason = .invalidOpcode → InvalidByte (s.load s.pc)) ∧
    (t.faultReason = .stackOverflow → s.sp = 0x00 ∧ (PushByte (s.load s.pc) ∨ s.load s.pc = 0xC2)) ∧
    (t.faultReason = .stackUnderflow → s.sp = 0xFF ∧ (PopByte (s.load s.pc) ∨ s.load s.pc = 0xC3)) ∧
    (t.faultReason = .addressRange → s.params.addrOverflow = .fault ∧
      ((s.load s.pc = 0xE2 ∧ ∀ j, s.pc.toNat + 1 + j ≤ 0xFF → s.load (s.pc + 1 + BitVec.ofNat 8 j) ≠ 0) ∨
       (∃ i k, decode [s.load s.pc, s.load (s.pc + 1), s.load (s.pc + 2), s.load (s.pc + 3)] = .ok i ∧
          usedOperands i = some k ∧ 0xFF < s.pc.toNat + k) ∨
       (∃ op, s.load s.pc = arithOpcode op ∧ 0xFF < s.pc.toNat + (Config.arith op).nOps.val)))

/-- R243: the transitions of the run state machine (the host's pending actions are the model's list `host`, log 7). -/
def Obligations.RunStateTransitions : Prop :=
  ∀ s t : State, step s = .next t →
    (s.run = .running →
      t.run = .running ∨ t.run = .faulted ∨
      (t.run = .awaitInput ∧ s.load s.pc = 0xE1) ∨ (t.run = .exited ∧ s.load s.pc = 0xEE)) ∧
    (s.run = .awaitInput →
      (t.run = .running ∧ ∃ n rest, s.host = .input n :: rest) ∨ (t.run = .awaitInput ∧ s.host = [])) ∧
    (HostMayAct s →
      (t.run = .running ∧ ∃ rest, s.host = .start :: rest) ∨ (t.run = .idle ∧ ∃ rest, s.host = .wipe :: rest) ∨
      (t.run = s.run ∧ s.host.head? ≠ some .start ∧ s.host.head? ≠ some .wipe))

/-- R243, R260: no instruction executes while no run is on: with no host action pending, the state stays as it is (that such
a step answers the same state is the model's choice, log 9). -/
def Obligations.NothingRunsWithoutTheHost : Prop :=
  ∀ s : State, HostMayAct s → s.host = [] → step s = .next s

/-! ## Whole-machine rules -/

/-- 10_state.md R33: no instruction writes the flags, programStart, the parameters, the host's pending actions or the load state,
and the fault fields change only with a fault. -/
def Obligations.InstructionsLeaveControlState : Prop :=
  ∀ s t : State, s.run = .running → step s = .next t →
    t.verbose = s.verbose ∧ t.promptOnInput = s.promptOnInput ∧ t.programStart = s.programStart ∧
    t.params = s.params ∧ t.host = s.host ∧ t.loadFailed = s.loadFailed ∧
    (t.run ≠ .faulted →
      t.faultReason = s.faultReason ∧ t.faultPc = s.faultPc ∧ t.faultOpcode = s.faultOpcode)

/-- 20_memory.md R51: while the run is on, a step changes memory only through the storing instructions, each at the address the table
gives, or through the add/sub family. -/
def Obligations.OnlyStoringInstructionsWriteMemory : Prop :=
  ∀ (s t : State) (a : Byte), s.mem.wf = true → s.run = .running → step s = .next t → t.load a ≠ s.load a →
    (s.load s.pc = 0x12 ∧ a = s.reg (hi (s.load (s.pc + 1)))) ∨
    (s.load s.pc = 0x13 ∧ a = s.reg (hi (s.load (s.pc + 1)))) ∨
    ((PushByte (s.load s.pc) ∨ s.load s.pc = 0xC2) ∧ a = s.sp - 1) ∨
    ArithByte (s.load s.pc)

/-- 20_memory.md R63: events are only ever added after those sent before, in every step. -/
def Obligations.EventsAreAppended : Prop :=
  ∀ s t : State, step s = .next t → s.events <+: t.events

/-- The model's parameters are fixed (log 1; 00_scope.md R9, R10): no step changes them. -/
def Obligations.ParametersNeverChange : Prop :=
  ∀ s t : State, step s = .next t → t.params = s.params

/-- 10_state.md R37, 46_system_io.md R223: dropping the diagnostic channel changes no other observation: states that differ in diagnostic
events and `verbose` only step to states that differ so. -/
def Obligations.DiagnosticsAlterNothing : Prop :=
  ∀ s t : State, DiagEquiv s t → DiagEquivOutcome (step s) (step t)

/-- Every step keeps the invariant (20_memory.md R50 in the model's canonical form, log 18; 93_implementation_defined.md I15, log 12). -/
def Obligations.StepKeepsInvariant : Prop :=
  ∀ s t : State, Inv s → step s = .next t → Inv t

/-- 20_memory.md R54, R58: a read gives the value most recently written to its cell (memory in the model's canonical form, log 18). -/
def Obligations.LoadAfterStore : Prop :=
  ∀ (s : State) (a v b : Byte), s.mem.wf = true →
    (s.store a v).load a = v ∧ (b ≠ a → (s.store a v).load b = s.load b) ∧
    (s.store a v).mem.wf = true ∧ RegsSame [] s (s.store a v) ∧ (s.store a v).events = s.events ∧
    RestSame s (s.store a v)

/-! ## Reset and the host (10_state.md R38, 70_reset_and_hazards.md) -/

/-- R270: the state at construction (the open parameters are the model's opaque constants, log 3). -/
def Obligations.ResetValues : Prop :=
  (∀ r, State.reset.reg r = 0x00) ∧ (∀ a, State.reset.load a = 0x00) ∧ State.reset.run = .idle ∧
  State.reset.verbose = Config.verbose0 ∧ State.reset.promptOnInput = Config.prompt0 ∧
  State.reset.programStart = Config.programStart0 ∧ State.reset.status = .idle ∧ State.reset.result = none

/-- The invariant holds at construction. -/
def Obligations.ResetMeetsInvariant : Prop := Inv State.reset

/-- R273: run entry sets pc, sp and the sentinel, and the run is Running; everything else keeps its value (of the model's own
fields, the action is consumed, log 7, and no string is in progress, log 19). -/
def Obligations.StartResult : Prop :=
  ∀ (s : State) (rest : List HostAction), s.mem.wf = true → HostMayAct s → s.host = .start :: rest →
    s.loadFailed = false →
    ∃ t, step s = .next t ∧ t.pc = s.programStart ∧ t.sp = 0xFF ∧ t.load 0xFF = s.programStart ∧ t.run = .running ∧
      RegsSame [spReg, pcReg] s t ∧ MemSameExcept 0xFF s t ∧ t.events = s.events ∧
      RestSame { s with run := .running, host := rest, inString := false } t

/-- R272: a wipe zeroes registers and memory, leaves the flags and programStart, and the run is Idle; it is not allowed in
AwaitInput (the model then stops, log 8; the action stands in the model's list `host`, log 7). -/
def Obligations.WipeResult : Prop :=
  ∀ (s : State) (rest : List HostAction), s.host = .wipe :: rest →
    (HostMayAct s → ∃ t, step s = .next t ∧ (∀ r, t.reg r = 0x00) ∧ (∀ a, t.load a = 0x00) ∧ t.run = .idle ∧
      t.verbose = s.verbose ∧ t.promptOnInput = s.promptOnInput ∧ t.programStart = s.programStart ∧
      t.host = rest ∧ t.events = s.events) ∧
    (s.run = .awaitInput → step s = .fault .hostActionNotAllowed)

/-- R38: the host sets programStart, the flags and single cells (its pending actions are the model's list `host`, log 7). -/
def Obligations.HostWritesResult : Prop :=
  ∀ (s : State) (rest : List HostAction), s.mem.wf = true → HostMayAct s →
    (∀ v, s.host = .setProgramStart v :: rest → step s = .next { s with programStart := v, host := rest }) ∧
    (∀ b p, s.host = .setFlags b p :: rest → step s = .next { s with verbose := b, promptOnInput := p, host := rest }) ∧
    (∀ a v, s.host = .loadWrite a v :: rest → ∃ t, step s = .next t ∧ t.load a = v ∧ MemSameExcept a s t ∧
      RegsSame [] s t ∧ t.events = s.events ∧ RestSame { s with host := rest } t)

/-- R38, 70_reset_and_hazards.md R275: a load whose integers lie in [0,256) and fit writes them from programStart upward; any other load leaves
the run state and the registers, and no run may start then (the flag is the model's, log 15). -/
def Obligations.LoadResult : Prop :=
  ∀ (s : State) (tokens : List Int) (rest : List HostAction), s.mem.wf = true → HostMayAct s →
    s.host = .load tokens :: rest →
    ((∀ x ∈ tokens, 0 ≤ x ∧ x < 256) → s.programStart.toNat + tokens.length ≤ 256 →
      ∃ t, step s = .next t ∧
        (∀ (k : Nat) (x : Int), tokens[k]? = some x → ((t.load (s.programStart + BitVec.ofNat 8 k)).toNat : Int) = x) ∧
        (∀ a : Byte, a.toNat < s.programStart.toNat ∨ s.programStart.toNat + tokens.length ≤ a.toNat →
          t.load a = s.load a) ∧
        RegsSame [] s t ∧ t.events = s.events ∧ RestSame { s with host := rest, loadFailed := false } t) ∧
    ((¬ ∀ x ∈ tokens, 0 ≤ x ∧ x < 256) ∨ 256 < s.programStart.toNat + tokens.length →
      ∃ t, step s = .next t ∧ t.run = s.run ∧ t.loadFailed = true ∧ t.host = rest ∧ RegsSame [] s t ∧
        ∀ more, step { t with host := .start :: more } = .fault .startAfterFailedLoad)

/-- 90_conflicts.md C2 (R201, R171): right after run entry the sentinel cannot be popped: ret and every pop raise StackUnderflow. -/
def Obligations.SentinelCannotBePopped : Prop :=
  ∀ (s t : State) (rest : List HostAction), HostMayAct s → s.host = .start :: rest → step s = .next t →
    (∃ u, exec .ret t = .next u ∧ FaultedFrom .stackUnderflow t u) ∧
    ∀ d, ∃ u, exec (.pop d) t = .next u ∧ FaultedFrom .stackUnderflow t u
end

