-- ==== Sys2Proof/Laws/Decode.lean ====
section
/-! SUPPORT. The laws of the two nibbles of a byte, of the operand formats, and what each opcode byte decodes to. -/

namespace Sys2Proof

@[simp] theorem hi_pack (a b : BitVec 4) : hi (pack a b) = a := by
  revert a b; decide

@[simp] theorem lo_pack (a b : BitVec 4) : lo (pack a b) = b := by
  revert a b; decide

@[simp] theorem pack_hi_lo (b : Byte) : pack (hi b) (lo b) = b := by
  revert b; decide

@[simp] theorem formRR_pack (f : BitVec 4 → BitVec 4 → Instr) (a b : BitVec 4) (rest : List Byte) :
    formRR f (pack a b :: rest) = .ok (f a b) := by
  simp [formRR]

@[simp] theorem formRRI_pack (f : BitVec 4 → BitVec 4 → Byte → Instr) (a b : BitVec 4) (v : Byte) (rest : List Byte) :
    formRRI f (pack a b :: v :: rest) = .ok (f a b v) := by
  simp [formRRI]

@[simp] theorem formI_cons (f : Byte → Instr) (v : Byte) (rest : List Byte) : formI f (v :: rest) = .ok (f v) := rfl

@[simp] theorem formArith_cons (f : List Byte → Instr) (a b c : Byte) (rest : List Byte) :
    formArith f (a :: b :: c :: rest) = .ok (f [a, b, c]) := rfl

/-- The three operand bytes of a well-formed add/sub instruction. -/
theorem opsWellFormed_iff (ops : List Byte) : opsWellFormed ops = true ↔ ∃ a b c, ops = [a, b, c] := by
  rw [opsWellFormed, beq_iff_eq, List.length_eq_three]

/-- The window's four bytes are never too few: what it does not decode to is an invalid opcode (R78). -/
theorem decode_window_error {op n1 n2 n3 : Byte} {e : DecodeError} (h : decode [op, n1, n2, n3] = .error e) :
    e = .invalidOpcode op := by
  simp only [decode, decodeOpcode] at h
  split at h
  all_goals
    (try unfold decode1 at h); (try unfold decode5 at h); (try unfold decode7 at h); (try unfold decodeA at h)
    (try unfold decodeC at h); (try unfold decodeE at h); (try unfold decodeSingle at h); (try split at h)
  all_goals cases h
  all_goals rfl

/-! ### What each opcode byte decodes to (30_encoding.md R73, R77) -/

@[simp] theorem decode_movImmediate (d : Reg) (rest : List Byte) :
    decode (pack 0x0#4 d :: rest) = formI (.movImmediate d) rest := by
  simp [decode, decodeOpcode]

@[simp] theorem decode_push (d : Reg) (rest : List Byte) : decode (pack 0x8#4 d :: rest) = .ok (.push d) := by
  simp [decode, decodeOpcode, form0]

@[simp] theorem decode_pop (d : Reg) (rest : List Byte) : decode (pack 0x9#4 d :: rest) = .ok (.pop d) := by
  simp [decode, decodeOpcode, form0]

@[simp] theorem decode_movRegReg (rest : List Byte) : decode (0x10#8 :: rest) = formRR .movRegReg rest := rfl
@[simp] theorem decode_loadIndirect (rest : List Byte) : decode (0x11#8 :: rest) = formRR .loadIndirect rest := rfl
@[simp] theorem decode_storeIndirect (rest : List Byte) : decode (0x12#8 :: rest) = formRR .storeIndirect rest := rfl
@[simp] theorem decode_copyIndirect (rest : List Byte) : decode (0x13#8 :: rest) = formRR .copyIndirect rest := rfl
@[simp] theorem decode_movPair (rest : List Byte) : decode (0x14#8 :: rest) = formRRI .movPair rest := rfl
@[simp] theorem decode_incImm (rest : List Byte) : decode (0x15#8 :: rest) = formRR .incImm rest := rfl
@[simp] theorem decode_decImm (rest : List Byte) : decode (0x16#8 :: rest) = formRR .decImm rest := rfl
@[simp] theorem decode_pcOffsetPlus (rest : List Byte) : decode (0x17#8 :: rest) = formRR .pcOffsetPlus rest := rfl
@[simp] theorem decode_pcOffsetMinus (rest : List Byte) : decode (0x18#8 :: rest) = formRR .pcOffsetMinus rest := rfl
@[simp] theorem decode_and (rest : List Byte) : decode (0x20#8 :: rest) = formRR .and rest := rfl
@[simp] theorem decode_or (rest : List Byte) : decode (0x30#8 :: rest) = formRR .or rest := rfl
@[simp] theorem decode_xor (rest : List Byte) : decode (0x40#8 :: rest) = formRR .xor rest := rfl
@[simp] theorem decode_shl (rest : List Byte) : decode (0x50#8 :: rest) = formRR .shl rest := rfl
@[simp] theorem decode_shr (rest : List Byte) : decode (0x51#8 :: rest) = formRR .shr rest := rfl
@[simp] theorem decode_rol (rest : List Byte) : decode (0x52#8 :: rest) = formRR .rol rest := rfl
@[simp] theorem decode_ror (rest : List Byte) : decode (0x53#8 :: rest) = formRR .ror rest := rfl
@[simp] theorem decode_jmp (rest : List Byte) : decode (0x70#8 :: rest) = formI .jmp rest := rfl
@[simp] theorem decode_jl (rest : List Byte) : decode (0x71#8 :: rest) = formRRI .jl rest := rfl
@[simp] theorem decode_jle (rest : List Byte) : decode (0x72#8 :: rest) = formRRI .jle rest := rfl
@[simp] theorem decode_je (rest : List Byte) : decode (0x73#8 :: rest) = formRRI .je rest := rfl
@[simp] theorem decode_jge (rest : List Byte) : decode (0x74#8 :: rest) = formRRI .jge rest := rfl
@[simp] theorem decode_jg (rest : List Byte) : decode (0x75#8 :: rest) = formRRI .jg rest := rfl
@[simp] theorem decode_jne (rest : List Byte) : decode (0x76#8 :: rest) = formRRI .jne rest := rfl
@[simp] theorem decode_skipIfNZ (rest : List Byte) : decode (0x77#8 :: rest) = formRR .skipIfNZ rest := rfl
@[simp] theorem decode_skipIfZ (rest : List Byte) : decode (0x78#8 :: rest) = formRR .skipIfZ rest := rfl
@[simp] theorem decode_arithA0 (rest : List Byte) : decode (0xA0#8 :: rest) = formArith .arithA0 rest := rfl
@[simp] theorem decode_arithA1 (rest : List Byte) : decode (0xA1#8 :: rest) = formArith .arithA1 rest := rfl
@[simp] theorem decode_arithA2 (rest : List Byte) : decode (0xA2#8 :: rest) = formArith .arithA2 rest := rfl
@[simp] theorem decode_arithA3 (rest : List Byte) : decode (0xA3#8 :: rest) = formArith .arithA3 rest := rfl
@[simp] theorem decode_arithA4 (rest : List Byte) : decode (0xA4#8 :: rest) = formArith .arithA4 rest := rfl
@[simp] theorem decode_arithA5 (rest : List Byte) : decode (0xA5#8 :: rest) = formArith .arithA5 rest := rfl
@[simp] theorem decode_arithA6 (rest : List Byte) : decode (0xA6#8 :: rest) = formArith .arithA6 rest := rfl
@[simp] theorem decode_arithA7 (rest : List Byte) : decode (0xA7#8 :: rest) = formArith .arithA7 rest := rfl
@[simp] theorem decode_arithA8 (rest : List Byte) : decode (0xA8#8 :: rest) = formArith .arithA8 rest := rfl
@[simp] theorem decode_arithA9 (rest : List Byte) : decode (0xA9#8 :: rest) = formArith .arithA9 rest := rfl
@[simp] theorem decode_arithAA (rest : List Byte) : decode (0xAA#8 :: rest) = formArith .arithAA rest := rfl
@[simp] theorem decode_arithAB (rest : List Byte) : decode (0xAB#8 :: rest) = formArith .arithAB rest := rfl
@[simp] theorem decode_arithAC (rest : List Byte) : decode (0xAC#8 :: rest) = formArith .arithAC rest := rfl
@[simp] theorem decode_call (rest : List Byte) : decode (0xC2#8 :: rest) = formI .call rest := rfl
@[simp] theorem decode_ret (rest : List Byte) : decode (0xC3#8 :: rest) = .ok .ret := rfl
@[simp] theorem decode_nop (rest : List Byte) : decode (0xD0#8 :: rest) = .ok .nop := rfl
@[simp] theorem decode_putchar (rest : List Byte) : decode (0xE0#8 :: rest) = .ok .putchar := rfl
@[simp] theorem decode_getchar (rest : List Byte) : decode (0xE1#8 :: rest) = .ok .getchar := rfl
@[simp] theorem decode_printString (rest : List Byte) : decode (0xE2#8 :: rest) = .ok .printString := rfl
@[simp] theorem decode_dumpReg0 (rest : List Byte) : decode (0xE8#8 :: rest) = .ok .dumpReg0 := rfl
@[simp] theorem decode_dumpReg1 (rest : List Byte) : decode (0xE9#8 :: rest) = .ok .dumpReg1 := rfl
@[simp] theorem decode_dumpMem (rest : List Byte) : decode (0xEA#8 :: rest) = .ok .dumpMem := rfl
@[simp] theorem decode_dumpRange (rest : List Byte) : decode (0xEB#8 :: rest) = .ok .dumpRange := rfl
@[simp] theorem decode_dumpRegR1 (rest : List Byte) : decode (0xEC#8 :: rest) = .ok .dumpRegR1 := rfl
@[simp] theorem decode_genericDump (rest : List Byte) : decode (0xED#8 :: rest) = formI .genericDump rest := rfl
@[simp] theorem decode_exit (rest : List Byte) : decode (0xEE#8 :: rest) = .ok .exit := rfl
@[simp] theorem decode_fileDump (rest : List Byte) : decode (0xEF#8 :: rest) = .ok .fileDump := rfl

end Sys2Proof
end

