-- ==== Sys2Proof/Laws/State.lean ====
section
/-! SUPPORT. One lemma for each field of State and each update of Machine/Ops.lean: what the field is after the update. -/

namespace Sys2Proof.Machine

/-! ### State.setReg -/

@[simp] theorem setReg_mem (s : State) (r : Reg) (v : Byte) : (s.setReg r v).mem = s.mem := rfl
@[simp] theorem setReg_run (s : State) (r : Reg) (v : Byte) : (s.setReg r v).run = s.run := rfl
@[simp] theorem setReg_faultReason (s : State) (r : Reg) (v : Byte) : (s.setReg r v).faultReason = s.faultReason := rfl
@[simp] theorem setReg_faultPc (s : State) (r : Reg) (v : Byte) : (s.setReg r v).faultPc = s.faultPc := rfl
@[simp] theorem setReg_faultOpcode (s : State) (r : Reg) (v : Byte) : (s.setReg r v).faultOpcode = s.faultOpcode := rfl
@[simp] theorem setReg_verbose (s : State) (r : Reg) (v : Byte) : (s.setReg r v).verbose = s.verbose := rfl
@[simp] theorem setReg_promptOnInput (s : State) (r : Reg) (v : Byte) : (s.setReg r v).promptOnInput = s.promptOnInput := rfl
@[simp] theorem setReg_programStart (s : State) (r : Reg) (v : Byte) : (s.setReg r v).programStart = s.programStart := rfl
@[simp] theorem setReg_latch (s : State) (r : Reg) (v : Byte) : (s.setReg r v).latch = s.latch := rfl
@[simp] theorem setReg_events (s : State) (r : Reg) (v : Byte) : (s.setReg r v).events = s.events := rfl
@[simp] theorem setReg_params (s : State) (r : Reg) (v : Byte) : (s.setReg r v).params = s.params := rfl
@[simp] theorem setReg_host (s : State) (r : Reg) (v : Byte) : (s.setReg r v).host = s.host := rfl
@[simp] theorem setReg_loadFailed (s : State) (r : Reg) (v : Byte) : (s.setReg r v).loadFailed = s.loadFailed := rfl
@[simp] theorem setReg_inString (s : State) (r : Reg) (v : Byte) : (s.setReg r v).inString = s.inString := rfl
@[simp] theorem setReg_draws (s : State) (r : Reg) (v : Byte) : (s.setReg r v).draws = s.draws := rfl
@[simp] theorem setReg_load (s : State) (r : Reg) (v : Byte) (x : Byte) : (s.setReg r v).load x = s.load x := rfl

/-! ### State.setPc -/

@[simp] theorem setPc_mem (s : State) (v : Byte) : (s.setPc v).mem = s.mem := rfl
@[simp] theorem setPc_run (s : State) (v : Byte) : (s.setPc v).run = s.run := rfl
@[simp] theorem setPc_faultReason (s : State) (v : Byte) : (s.setPc v).faultReason = s.faultReason := rfl
@[simp] theorem setPc_faultPc (s : State) (v : Byte) : (s.setPc v).faultPc = s.faultPc := rfl
@[simp] theorem setPc_faultOpcode (s : State) (v : Byte) : (s.setPc v).faultOpcode = s.faultOpcode := rfl
@[simp] theorem setPc_verbose (s : State) (v : Byte) : (s.setPc v).verbose = s.verbose := rfl
@[simp] theorem setPc_promptOnInput (s : State) (v : Byte) : (s.setPc v).promptOnInput = s.promptOnInput := rfl
@[simp] theorem setPc_programStart (s : State) (v : Byte) : (s.setPc v).programStart = s.programStart := rfl
@[simp] theorem setPc_latch (s : State) (v : Byte) : (s.setPc v).latch = s.latch := rfl
@[simp] theorem setPc_events (s : State) (v : Byte) : (s.setPc v).events = s.events := rfl
@[simp] theorem setPc_params (s : State) (v : Byte) : (s.setPc v).params = s.params := rfl
@[simp] theorem setPc_host (s : State) (v : Byte) : (s.setPc v).host = s.host := rfl
@[simp] theorem setPc_loadFailed (s : State) (v : Byte) : (s.setPc v).loadFailed = s.loadFailed := rfl
@[simp] theorem setPc_inString (s : State) (v : Byte) : (s.setPc v).inString = s.inString := rfl
@[simp] theorem setPc_draws (s : State) (v : Byte) : (s.setPc v).draws = s.draws := rfl
@[simp] theorem setPc_load (s : State) (v : Byte) (x : Byte) : (s.setPc v).load x = s.load x := rfl

/-! ### State.store -/

@[simp] theorem store_regs (s : State) (a v : Byte) : (s.store a v).regs = s.regs := rfl
@[simp] theorem store_mem (s : State) (a v : Byte) : (s.store a v).mem = memWrite s.mem a v := rfl
@[simp] theorem store_run (s : State) (a v : Byte) : (s.store a v).run = s.run := rfl
@[simp] theorem store_faultReason (s : State) (a v : Byte) : (s.store a v).faultReason = s.faultReason := rfl
@[simp] theorem store_faultPc (s : State) (a v : Byte) : (s.store a v).faultPc = s.faultPc := rfl
@[simp] theorem store_faultOpcode (s : State) (a v : Byte) : (s.store a v).faultOpcode = s.faultOpcode := rfl
@[simp] theorem store_verbose (s : State) (a v : Byte) : (s.store a v).verbose = s.verbose := rfl
@[simp] theorem store_promptOnInput (s : State) (a v : Byte) : (s.store a v).promptOnInput = s.promptOnInput := rfl
@[simp] theorem store_programStart (s : State) (a v : Byte) : (s.store a v).programStart = s.programStart := rfl
@[simp] theorem store_latch (s : State) (a v : Byte) : (s.store a v).latch = s.latch := rfl
@[simp] theorem store_events (s : State) (a v : Byte) : (s.store a v).events = s.events := rfl
@[simp] theorem store_params (s : State) (a v : Byte) : (s.store a v).params = s.params := rfl
@[simp] theorem store_host (s : State) (a v : Byte) : (s.store a v).host = s.host := rfl
@[simp] theorem store_loadFailed (s : State) (a v : Byte) : (s.store a v).loadFailed = s.loadFailed := rfl
@[simp] theorem store_inString (s : State) (a v : Byte) : (s.store a v).inString = s.inString := rfl
@[simp] theorem store_draws (s : State) (a v : Byte) : (s.store a v).draws = s.draws := rfl
@[simp] theorem store_reg (s : State) (a v : Byte) (k : Reg) : (s.store a v).reg k = s.reg k := rfl
@[simp] theorem store_pc (s : State) (a v : Byte) : (s.store a v).pc = s.pc := rfl
@[simp] theorem store_sp (s : State) (a v : Byte) : (s.store a v).sp = s.sp := rfl

/-! ### emit -/

@[simp] theorem emit_regs (e : Event) (s : State) : (emit e s).regs = s.regs := rfl
@[simp] theorem emit_mem (e : Event) (s : State) : (emit e s).mem = s.mem := rfl
@[simp] theorem emit_run (e : Event) (s : State) : (emit e s).run = s.run := rfl
@[simp] theorem emit_faultReason (e : Event) (s : State) : (emit e s).faultReason = s.faultReason := rfl
@[simp] theorem emit_faultPc (e : Event) (s : State) : (emit e s).faultPc = s.faultPc := rfl
@[simp] theorem emit_faultOpcode (e : Event) (s : State) : (emit e s).faultOpcode = s.faultOpcode := rfl
@[simp] theorem emit_verbose (e : Event) (s : State) : (emit e s).verbose = s.verbose := rfl
@[simp] theorem emit_promptOnInput (e : Event) (s : State) : (emit e s).promptOnInput = s.promptOnInput := rfl
@[simp] theorem emit_programStart (e : Event) (s : State) : (emit e s).programStart = s.programStart := rfl
@[simp] theorem emit_latch (e : Event) (s : State) : (emit e s).latch = s.latch := rfl
@[simp] theorem emit_events (e : Event) (s : State) : (emit e s).events = s.events ++ [e] := rfl
@[simp] theorem emit_params (e : Event) (s : State) : (emit e s).params = s.params := rfl
@[simp] theorem emit_host (e : Event) (s : State) : (emit e s).host = s.host := rfl
@[simp] theorem emit_loadFailed (e : Event) (s : State) : (emit e s).loadFailed = s.loadFailed := rfl
@[simp] theorem emit_inString (e : Event) (s : State) : (emit e s).inString = s.inString := rfl
@[simp] theorem emit_draws (e : Event) (s : State) : (emit e s).draws = s.draws := rfl
@[simp] theorem emit_reg (e : Event) (s : State) (k : Reg) : (emit e s).reg k = s.reg k := rfl
@[simp] theorem emit_pc (e : Event) (s : State) : (emit e s).pc = s.pc := rfl
@[simp] theorem emit_sp (e : Event) (s : State) : (emit e s).sp = s.sp := rfl
@[simp] theorem emit_load (e : Event) (s : State) (x : Byte) : (emit e s).load x = s.load x := rfl

/-! ### emitAll -/

@[simp] theorem emitAll_nil (s : State) : emitAll [] s = s := by
  cases s; simp [emitAll]
@[simp] theorem emitAll_regs (es : List Event) (s : State) : (emitAll es s).regs = s.regs := rfl
@[simp] theorem emitAll_mem (es : List Event) (s : State) : (emitAll es s).mem = s.mem := rfl
@[simp] theorem emitAll_run (es : List Event) (s : State) : (emitAll es s).run = s.run := rfl
@[simp] theorem emitAll_faultReason (es : List Event) (s : State) : (emitAll es s).faultReason = s.faultReason := rfl
@[simp] theorem emitAll_faultPc (es : List Event) (s : State) : (emitAll es s).faultPc = s.faultPc := rfl
@[simp] theorem emitAll_faultOpcode (es : List Event) (s : State) : (emitAll es s).faultOpcode = s.faultOpcode := rfl
@[simp] theorem emitAll_verbose (es : List Event) (s : State) : (emitAll es s).verbose = s.verbose := rfl
@[simp] theorem emitAll_promptOnInput (es : List Event) (s : State) : (emitAll es s).promptOnInput = s.promptOnInput := rfl
@[simp] theorem emitAll_programStart (es : List Event) (s : State) : (emitAll es s).programStart = s.programStart := rfl
@[simp] theorem emitAll_latch (es : List Event) (s : State) : (emitAll es s).latch = s.latch := rfl
@[simp] theorem emitAll_events (es : List Event) (s : State) : (emitAll es s).events = s.events ++ es := rfl
@[simp] theorem emitAll_params (es : List Event) (s : State) : (emitAll es s).params = s.params := rfl
@[simp] theorem emitAll_host (es : List Event) (s : State) : (emitAll es s).host = s.host := rfl
@[simp] theorem emitAll_loadFailed (es : List Event) (s : State) : (emitAll es s).loadFailed = s.loadFailed := rfl
@[simp] theorem emitAll_inString (es : List Event) (s : State) : (emitAll es s).inString = s.inString := rfl
@[simp] theorem emitAll_draws (es : List Event) (s : State) : (emitAll es s).draws = s.draws := rfl
@[simp] theorem emitAll_reg (es : List Event) (s : State) (k : Reg) : (emitAll es s).reg k = s.reg k := rfl
@[simp] theorem emitAll_pc (es : List Event) (s : State) : (emitAll es s).pc = s.pc := rfl
@[simp] theorem emitAll_sp (es : List Event) (s : State) : (emitAll es s).sp = s.sp := rfl
@[simp] theorem emitAll_load (es : List Event) (s : State) (x : Byte) : (emitAll es s).load x = s.load x := rfl

/-! ### raiseFault -/

@[simp] theorem raiseFault_regs (q : FaultReason) (s : State) : (raiseFault q s).regs = s.regs := rfl
@[simp] theorem raiseFault_mem (q : FaultReason) (s : State) : (raiseFault q s).mem = s.mem := rfl
@[simp] theorem raiseFault_run (q : FaultReason) (s : State) : (raiseFault q s).run = .faulted := rfl
@[simp] theorem raiseFault_faultReason (q : FaultReason) (s : State) : (raiseFault q s).faultReason = q := rfl
@[simp] theorem raiseFault_faultPc (q : FaultReason) (s : State) : (raiseFault q s).faultPc = s.pc := rfl
@[simp] theorem raiseFault_faultOpcode (q : FaultReason) (s : State) : (raiseFault q s).faultOpcode = s.load s.pc := rfl
@[simp] theorem raiseFault_verbose (q : FaultReason) (s : State) : (raiseFault q s).verbose = s.verbose := rfl
@[simp] theorem raiseFault_promptOnInput (q : FaultReason) (s : State) : (raiseFault q s).promptOnInput = s.promptOnInput := rfl
@[simp] theorem raiseFault_programStart (q : FaultReason) (s : State) : (raiseFault q s).programStart = s.programStart := rfl
@[simp] theorem raiseFault_latch (q : FaultReason) (s : State) : (raiseFault q s).latch = s.latch := rfl
@[simp] theorem raiseFault_events (q : FaultReason) (s : State) : (raiseFault q s).events = s.events ++ [.halt (.faulted q)] := rfl
@[simp] theorem raiseFault_params (q : FaultReason) (s : State) : (raiseFault q s).params = s.params := rfl
@[simp] theorem raiseFault_host (q : FaultReason) (s : State) : (raiseFault q s).host = s.host := rfl
@[simp] theorem raiseFault_loadFailed (q : FaultReason) (s : State) : (raiseFault q s).loadFailed = s.loadFailed := rfl
@[simp] theorem raiseFault_inString (q : FaultReason) (s : State) : (raiseFault q s).inString = s.inString := rfl
@[simp] theorem raiseFault_draws (q : FaultReason) (s : State) : (raiseFault q s).draws = s.draws := rfl
@[simp] theorem raiseFault_reg (q : FaultReason) (s : State) (k : Reg) : (raiseFault q s).reg k = s.reg k := rfl
@[simp] theorem raiseFault_pc (q : FaultReason) (s : State) : (raiseFault q s).pc = s.pc := rfl
@[simp] theorem raiseFault_sp (q : FaultReason) (s : State) : (raiseFault q s).sp = s.sp := rfl
@[simp] theorem raiseFault_load (q : FaultReason) (s : State) (x : Byte) : (raiseFault q s).load x = s.load x := rfl

/-! ### traceFetch -/

@[simp] theorem traceFetch_regs (s : State) : (traceFetch s).regs = s.regs := rfl
@[simp] theorem traceFetch_mem (s : State) : (traceFetch s).mem = s.mem := rfl
@[simp] theorem traceFetch_run (s : State) : (traceFetch s).run = s.run := rfl
@[simp] theorem traceFetch_faultReason (s : State) : (traceFetch s).faultReason = s.faultReason := rfl
@[simp] theorem traceFetch_faultPc (s : State) : (traceFetch s).faultPc = s.faultPc := rfl
@[simp] theorem traceFetch_faultOpcode (s : State) : (traceFetch s).faultOpcode = s.faultOpcode := rfl
@[simp] theorem traceFetch_verbose (s : State) : (traceFetch s).verbose = s.verbose := rfl
@[simp] theorem traceFetch_promptOnInput (s : State) : (traceFetch s).promptOnInput = s.promptOnInput := rfl
@[simp] theorem traceFetch_programStart (s : State) : (traceFetch s).programStart = s.programStart := rfl
@[simp] theorem traceFetch_latch (s : State) : (traceFetch s).latch = s.latch := rfl
@[simp] theorem traceFetch_events (s : State) : (traceFetch s).events = if s.verbose then s.events ++ [.trace s.pc (fetchOpcode s)] else s.events := rfl
@[simp] theorem traceFetch_params (s : State) : (traceFetch s).params = s.params := rfl
@[simp] theorem traceFetch_host (s : State) : (traceFetch s).host = s.host := rfl
@[simp] theorem traceFetch_loadFailed (s : State) : (traceFetch s).loadFailed = s.loadFailed := rfl
@[simp] theorem traceFetch_inString (s : State) : (traceFetch s).inString = s.inString := rfl
@[simp] theorem traceFetch_draws (s : State) : (traceFetch s).draws = s.draws := rfl
@[simp] theorem traceFetch_reg (s : State) (k : Reg) : (traceFetch s).reg k = s.reg k := rfl
@[simp] theorem traceFetch_pc (s : State) : (traceFetch s).pc = s.pc := rfl
@[simp] theorem traceFetch_sp (s : State) : (traceFetch s).sp = s.sp := rfl
@[simp] theorem traceFetch_load (s : State) (x : Byte) : (traceFetch s).load x = s.load x := rfl

/-! ### latchOperands -/

@[simp] theorem latchOperands_regs (s : State) : (latchOperands s).regs = s.regs := rfl
@[simp] theorem latchOperands_mem (s : State) : (latchOperands s).mem = s.mem := rfl
@[simp] theorem latchOperands_run (s : State) : (latchOperands s).run = s.run := rfl
@[simp] theorem latchOperands_faultReason (s : State) : (latchOperands s).faultReason = s.faultReason := rfl
@[simp] theorem latchOperands_faultPc (s : State) : (latchOperands s).faultPc = s.faultPc := rfl
@[simp] theorem latchOperands_faultOpcode (s : State) : (latchOperands s).faultOpcode = s.faultOpcode := rfl
@[simp] theorem latchOperands_verbose (s : State) : (latchOperands s).verbose = s.verbose := rfl
@[simp] theorem latchOperands_promptOnInput (s : State) : (latchOperands s).promptOnInput = s.promptOnInput := rfl
@[simp] theorem latchOperands_programStart (s : State) : (latchOperands s).programStart = s.programStart := rfl
@[simp] theorem latchOperands_latch (s : State) : (latchOperands s).latch = ⟨s.load (s.pc + 1), s.load (s.pc + 2), s.load (s.pc + 3)⟩ := rfl
@[simp] theorem latchOperands_events (s : State) : (latchOperands s).events = s.events := rfl
@[simp] theorem latchOperands_params (s : State) : (latchOperands s).params = s.params := rfl
@[simp] theorem latchOperands_host (s : State) : (latchOperands s).host = s.host := rfl
@[simp] theorem latchOperands_loadFailed (s : State) : (latchOperands s).loadFailed = s.loadFailed := rfl
@[simp] theorem latchOperands_inString (s : State) : (latchOperands s).inString = s.inString := rfl
@[simp] theorem latchOperands_draws (s : State) : (latchOperands s).draws = s.draws := rfl
@[simp] theorem latchOperands_reg (s : State) (k : Reg) : (latchOperands s).reg k = s.reg k := rfl
@[simp] theorem latchOperands_pc (s : State) : (latchOperands s).pc = s.pc := rfl
@[simp] theorem latchOperands_sp (s : State) : (latchOperands s).sp = s.sp := rfl
@[simp] theorem latchOperands_load (s : State) (x : Byte) : (latchOperands s).load x = s.load x := rfl

end Sys2Proof.Machine
end

