-- ==== Sys2Proof/Laws/Memory.lean ====
section
/-! SUPPORT. The laws of memory: a read after a write, and the canonical form, which every memory operation keeps. -/

namespace Sys2Proof.Machine

@[simp] theorem memLookup_nil (a : Nat) : memLookup [] a = memDefault := rfl

@[simp] theorem memLookup_cons (k : Nat) (v : Byte) (rest : Memory) (a : Nat) :
    memLookup ((k, v) :: rest) a = if k = a then v else memLookup rest a := rfl

/-- Below the first listed address nothing is listed. -/
theorem memLookup_of_lt {low : Nat} {m : Memory} (h : memWfFrom low m = true) {a : Nat} (ha : a < low) :
    memLookup m a = memDefault := by
  induction m generalizing low with
  | nil => rfl
  | cons c rest ih =>
    obtain ⟨k, v⟩ := c
    simp only [memWfFrom, Bool.and_eq_true, decide_eq_true_eq] at h
    obtain ⟨⟨⟨h1, -⟩, -⟩, h4⟩ := h
    rw [memLookup_cons, if_neg (by omega)]
    exact ih h4 (by omega)

theorem memWfFrom_mono {low low' : Nat} {m : Memory} (h : memWfFrom low m = true) (hl : low' ≤ low) :
    memWfFrom low' m = true := by
  cases m with
  | nil => rfl
  | cons c rest =>
    obtain ⟨k, v⟩ := c
    simp only [memWfFrom, Bool.and_eq_true, decide_eq_true_eq] at h ⊢
    obtain ⟨⟨⟨h1, h2⟩, h3⟩, h4⟩ := h
    exact ⟨⟨⟨by omega, h2⟩, h3⟩, h4⟩

theorem memLookup_memInsert (m : Memory) (a : Nat) (v : Byte) (b : Nat) :
    memLookup (memInsert m a v) b = if b = a then v else memLookup m b := by
  induction m with
  | nil => by_cases h : a = b <;> simp [memInsert, h, eq_comm (a := b)]
  | cons c rest ih =>
    obtain ⟨k, w⟩ := c
    unfold memInsert
    split
    · by_cases h : a = b <;> simp [h, eq_comm (a := b)]
    · split
      · subst_vars
        by_cases h : k = b <;> simp [h, eq_comm (a := b)]
      · rw [memLookup_cons, ih, memLookup_cons]
        by_cases h : b = a
        · subst h
          rw [if_neg (by omega), if_pos rfl, if_pos rfl]
        · rw [if_neg h, if_neg h]

theorem memLookup_memErase {low : Nat} {m : Memory} (hw : memWfFrom low m = true) (a b : Nat) :
    memLookup (memErase m a) b = if b = a then memDefault else memLookup m b := by
  induction m generalizing low with
  | nil => simp [memErase]
  | cons c rest ih =>
    obtain ⟨k, w⟩ := c
    simp only [memWfFrom, Bool.and_eq_true, decide_eq_true_eq] at hw
    unfold memErase
    split
    · subst_vars
      by_cases h : b = k
      · rw [if_pos h, h]
        exact memLookup_of_lt hw.2 (by omega)
      · rw [if_neg h, memLookup_cons, if_neg (Ne.symm h)]
    · rename_i hk
      rw [memLookup_cons, ih hw.2, memLookup_cons]
      by_cases h : b = a
      · subst h
        rw [if_neg hk, if_pos rfl, if_pos rfl]
      · rw [if_neg h, if_neg h]

theorem memWfFrom_memInsert {low : Nat} {m : Memory} (hw : memWfFrom low m = true) {a : Nat} {v : Byte}
    (hl : low ≤ a) (ha : a < 256) (hv : v ≠ memDefault) : memWfFrom low (memInsert m a v) = true := by
  induction m generalizing low with
  | nil => simp [memInsert, memWfFrom, hl, ha, hv]
  | cons c rest ih =>
    obtain ⟨k, w⟩ := c
    simp only [memWfFrom, Bool.and_eq_true, decide_eq_true_eq, bne_iff_ne] at hw
    obtain ⟨⟨⟨h1, h2⟩, h3⟩, h4⟩ := hw
    unfold memInsert
    split
    · simp [memWfFrom, hl, ha, hv, h2, h3, h4]
      omega
    · split
      · subst_vars
        simp [memWfFrom, hl, ha, hv, h4]
      · simp only [memWfFrom, Bool.and_eq_true, decide_eq_true_eq, bne_iff_ne]
        exact ⟨⟨⟨h1, h2⟩, h3⟩, ih h4 (by omega)⟩

theorem memWfFrom_memErase {low : Nat} {m : Memory} (hw : memWfFrom low m = true) (a : Nat) :
    memWfFrom low (memErase m a) = true := by
  induction m generalizing low with
  | nil => rfl
  | cons c rest ih =>
    obtain ⟨k, w⟩ := c
    have h := hw
    simp only [memWfFrom, Bool.and_eq_true, decide_eq_true_eq, bne_iff_ne] at h
    obtain ⟨⟨⟨h1, h2⟩, h3⟩, h4⟩ := h
    unfold memErase
    split
    · exact memWfFrom_mono h4 (by omega)
    · simp only [memWfFrom, Bool.and_eq_true, decide_eq_true_eq, bne_iff_ne]
      exact ⟨⟨⟨h1, h2⟩, h3⟩, ih h4⟩

/-- A write keeps the canonical form. -/
theorem memWrite_wf {m : Memory} (hw : m.wf = true) (a v : Byte) : (memWrite m a v).wf = true := by
  unfold Memory.wf memWrite at *
  split
  · exact memWfFrom_memErase hw _
  · exact memWfFrom_memInsert hw (Nat.zero_le _) a.isLt (by assumption)

/-- A read after a write: the value written at its address, the old value elsewhere (20_memory.md R58). -/
theorem memRead_memWrite {m : Memory} (hw : m.wf = true) (a v b : Byte) :
    memRead (memWrite m a v) b = if b = a then v else memRead m b := by
  have hab : (b.toNat = a.toNat) = (b = a) := by rw [BitVec.toNat_eq]
  unfold memRead memWrite Memory.wf at *
  split
  · rename_i hv
    rw [memLookup_memErase hw, hv]
    simp only [hab]
  · rw [memLookup_memInsert]
    simp only [hab]

/-- The empty memory is in canonical form. -/
theorem nil_wf : Memory.wf [] = true := rfl

/-- The memory of a function is in canonical form. -/
theorem memOfFn_wf (f : Nat → Byte) : (memOfFn f).wf = true := by
  unfold memOfFn
  generalize List.range 256 = l
  have : ∀ m : Memory, m.wf = true →
      (l.foldl (fun m a => memWrite m (BitVec.ofNat 8 a) (f a)) m).wf = true := by
    induction l with
    | nil => exact fun m h => h
    | cons a rest ih => exact fun m h => ih _ (memWrite_wf h _ _)
  exact this _ nil_wf

/-- Storing bytes one after the other keeps the canonical form. -/
theorem storeBytes_wf (bytes : List Byte) (a : Byte) (s : State) (hw : s.mem.wf = true) :
    (storeBytes bytes a s).mem.wf = true := by
  induction bytes generalizing a s with
  | nil => exact hw
  | cons b rest ih => exact ih _ _ (memWrite_wf hw _ _)

/-- Storing bytes changes memory and nothing else. -/
theorem storeBytes_eq (bytes : List Byte) (a : Byte) (s : State) :
    storeBytes bytes a s = { s with mem := (storeBytes bytes a s).mem } := by
  induction bytes generalizing a s with
  | nil => rfl
  | cons b rest ih => exact ih (a + 1) (s.store a b)

/-- A load after a store. -/
theorem load_store {s : State} (hw : s.mem.wf = true) (a v b : Byte) :
    (s.store a v).load b = if b = a then v else s.load b := memRead_memWrite hw a v b

end Sys2Proof.Machine
end

