-- ==== Sys2Proof/Laws/Registers.lean ====
section
/-! SUPPORT. The laws of the register file, and what the shared operations over it do. -/

namespace Sys2Proof.Machine

/-- A register read after a register write (10_state.md R22). -/
theorem reg_setReg (s : State) (r : Reg) (v : Byte) (q : Reg) :
    (s.setReg r v).reg q = if q = r then v else s.reg q := by
  unfold State.reg State.setReg
  rw [Vector.get_eq_getElem, Vector.get_eq_getElem, Vector.getElem_set]
  by_cases h : q = r
  · subst h; simp
  · have : ¬ r.toNat = q.toNat := fun he => h (BitVec.eq_of_toNat_eq he.symm)
    simp [h, this]

@[simp] theorem reg_setReg_self (s : State) (r : Reg) (v : Byte) : (s.setReg r v).reg r = v := by
  rw [reg_setReg, if_pos rfl]

theorem reg_setReg_ne (s : State) {r q : Reg} (v : Byte) (h : q ≠ r) : (s.setReg r v).reg q = s.reg q := by
  rw [reg_setReg, if_neg h]

@[simp] theorem pc_setPc (s : State) (v : Byte) : (s.setPc v).pc = v := reg_setReg_self s pcReg v

theorem reg_setPc (s : State) (v : Byte) (q : Reg) : (s.setPc v).reg q = if q = pcReg then v else s.reg q :=
  reg_setReg s pcReg v q

theorem pc_setReg_ne (s : State) {r : Reg} (v : Byte) (h : r ≠ pcReg) : (s.setReg r v).pc = s.pc :=
  reg_setReg_ne s v (Ne.symm h)

@[simp] theorem sp_setReg_sp (s : State) (v : Byte) : (s.setReg spReg v).sp = v := reg_setReg_self s spReg v

@[simp] theorem sp_setPc (s : State) (v : Byte) : (s.setPc v).sp = s.sp := reg_setReg_ne s v (by decide)

/-- The generic advance writes the pc or, under bypass after a write of r15, nothing (10_state.md R28). -/
theorem advance_cases (len : Byte) (w : Bool) (s : State) :
    (advance len w s = s.setPc (s.pc + len)) ∨ (w = true ∧ s.params.pcWrite = .bypass ∧ advance len w s = s) := by
  unfold advance
  split
  · rename_i h; exact .inr ⟨h.2, h.1, rfl⟩
  · exact .inl rfl

/-- The advance of an instruction that did not write r15 (R28). -/
@[simp] theorem advance_false (len : Byte) (s : State) : advance len false s = s.setPc (s.pc + len) := by
  simp [advance]

/-- The advance changes only the register file. -/
theorem advance_eq (len : Byte) (w : Bool) (s : State) : advance len w s = { s with regs := (advance len w s).regs } := by
  unfold advance
  split <;> rfl

/-- The advance changes only r15. -/
theorem reg_advance (len : Byte) (w : Bool) (s : State) {q : Reg} (h : q ≠ pcReg) : (advance len w s).reg q = s.reg q := by
  rcases advance_cases len w s with e | ⟨-, -, e⟩ <;> rw [e]
  exact reg_setReg_ne s _ h

/-- The end of a sequential instruction changes only the register file. -/
theorem writeAdvance_eq (a : Reg) (v len : Byte) (s : State) :
    writeAdvance a v len s = { s with regs := (writeAdvance a v len s).regs } := by
  unfold writeAdvance
  rw [advance_eq]
  rfl

/-- What a sequential instruction that writes a register other than r15 leaves in the registers. -/
theorem writeAdvance_of_ne {a : Reg} (h : a ≠ pcReg) (v len : Byte) (s : State) :
    writeAdvance a v len s = (s.setReg a v).setPc (s.pc + len) := by
  have hb : (a == pcReg) = false := by simp [h]
  rw [writeAdvance, hb, advance_false, pc_setReg_ne s v h]

/-- What a sequential instruction that writes r15 leaves in it (R28). -/
theorem pc_writeAdvance_pc (v len : Byte) (s : State) :
    (writeAdvance pcReg v len s).pc = if s.params.pcWrite = .bypass then v else v + len := by
  unfold writeAdvance advance
  simp only [beq_self_eq_true, and_true, setReg_params]
  have h : (s.setReg pcReg v).pc = v := reg_setReg_self s pcReg v
  split
  · exact h
  · rw [pc_setPc, h]

/-- A sequential instruction changes its destination and r15 only. -/
theorem reg_writeAdvance (a : Reg) (v len : Byte) (s : State) {q : Reg} (hq : q ≠ pcReg) :
    (writeAdvance a v len s).reg q = if q = a then v else s.reg q := by
  unfold writeAdvance
  rw [reg_advance _ _ _ hq, reg_setReg]

/-- A used operand byte past 0xFF raises AddressRange, else the effect happens (20_memory.md R56). -/
theorem withOperands_cases (k : Nat) (s body : State) :
    (operandOverflow k s = true ∧ withOperands k s body = raiseFault .addressRange s) ∨
    (operandOverflow k s = false ∧ withOperands k s body = body) := by
  unfold withOperands
  cases operandOverflow k s <;> simp

/-- When an operand byte lies past the top of memory. -/
theorem operandOverflow_iff (k : Nat) (s : State) :
    operandOverflow k s = true ↔ s.params.addrOverflow = .fault ∧ 0xFF < s.pc.toNat + k := by
  simp [operandOverflow]

end Sys2Proof.Machine
end

