-- ==== Sys2Proof/Laws/Shapes.lean ====
section
/-! SUPPORT. For each shared operation, everything it can do, in the terms of Safety.lean. -/

namespace Sys2Proof.Machine

/-! ### Frames -/

theorem regsSame_of_regs_eq {s t : State} (h : t.regs = s.regs) (ex : List Reg) : RegsSame ex s t := fun r _ => by
  unfold State.reg; rw [h]

theorem memSame_of_mem_eq {s t : State} (h : t.mem = s.mem) : MemSame s t := fun a => by
  unfold State.load; rw [h]

/-- Memory outside the stored address is unchanged. -/
theorem memSameExcept_store {s : State} (hw : s.mem.wf = true) (a v : Byte) : MemSameExcept a s (s.store a v) :=
  fun b hb => by rw [load_store hw, if_neg hb]

/-! ### Faults and operand bytes -/

/-- Taking a fault is the fault entry of 60_exceptions.md R241. -/
theorem faultedFrom_raiseFault (q : FaultReason) (s : State) : FaultedFrom q s (raiseFault q s) := rfl

theorem operandOverflow_eq_true {k : Nat} {s : State} (h : PastTop k s) : operandOverflow k s = true :=
  (operandOverflow_iff k s).2 h

theorem operandOverflow_eq_false {k : Nat} {s : State} (h : ¬ PastTop k s) : operandOverflow k s = false := by
  cases ho : operandOverflow k s
  · rfl
  · exact absurd ((operandOverflow_iff k s).1 ho) h

/-- An instruction with `k` used operand bytes and effect `body`. -/
theorem completesOrRangeFault_of_exec {k : Nat} {i : Instr} {s body : State} {P : State → Prop}
    (he : exec i s = .next (withOperands k s body)) (hp : P body) : CompletesOrRangeFault k i s P := by
  refine ⟨fun h => ⟨raiseFault .addressRange s, ?_, rfl⟩, fun h => ⟨body, ?_, hp⟩⟩
  · rw [he, withOperands, operandOverflow_eq_true h, if_pos rfl]
  · rw [he, withOperands, operandOverflow_eq_false h, if_neg (by decide)]

/-! ### Results -/

/-- The end of a sequential instruction that writes one register. -/
theorem regResult_writeAdvance (a : Reg) (v len : Byte) (s : State) : RegResult a v len s (writeAdvance a v len s) := by
  have heq := writeAdvance_eq a v len s
  refine ⟨⟨fun h => ?_, fun h hp => ?_, fun h hp => ?_, fun r hr => ?_⟩, ?_, ?_, ?_⟩
  · rw [writeAdvance_of_ne h]
    refine ⟨?_, pc_setPc _ _⟩
    rw [reg_setPc, if_neg h, reg_setReg_self]
  · subst h
    rw [pc_writeAdvance_pc, if_neg (by rw [hp]; decide)]
  · subst h
    rw [pc_writeAdvance_pc, if_pos hp]
  · simp only [List.mem_cons, List.not_mem_nil, or_false, not_or] at hr
    rw [reg_writeAdvance a v len s hr.2, if_neg hr.1]
  · rw [heq]; exact fun _ => rfl
  · rw [heq]
  · unfold RestSame; rw [heq]

/-- A control transfer. -/
theorem jumpResult_setPc (target : Byte) (s : State) : JumpResult target s (s.setPc target) :=
  ⟨pc_setPc s target, fun r hr => by
    rw [reg_setPc, if_neg (by simpa using hr)], fun _ => rfl, rfl, rfl⟩

/-- The end of a sequential instruction that stores one byte. -/
theorem storeResult_advance {s : State} (hw : s.mem.wf = true) (addr v len : Byte) :
    StoreResult addr v len s (advance len false (s.store addr v)) := by
  rw [advance_false]
  refine ⟨?_, fun b hb => ?_, pc_setPc _ _, fun r hr => ?_, rfl, rfl⟩
  · rw [setPc_load, load_store hw, if_pos rfl]
  · rw [setPc_load, load_store hw, if_neg hb]
  · rw [reg_setPc, if_neg (by simpa using hr), store_reg]

/-- The end of a sequential instruction that sends events. -/
theorem sendResult_advance (es : List Event) (len : Byte) (s : State) :
    SendResult es len s (advance len false (emitAll es s)) := by
  rw [advance_false]
  exact ⟨rfl, pc_setPc _ _, fun r hr => by rw [reg_setPc, if_neg (by simpa using hr), emitAll_reg], fun _ => rfl, rfl⟩

/-! ### The stack -/

/-- A push stores below the old sp and lowers sp. -/
theorem pushByte_spec {s : State} (hw : s.mem.wf = true) (v : Byte) :
    (pushByte v s).sp = s.sp - 1 ∧ (pushByte v s).load (s.sp - 1) = v ∧ MemSameExcept (s.sp - 1) s (pushByte v s) ∧
    RegsSame [spReg] s (pushByte v s) ∧ (pushByte v s).events = s.events ∧ RestSame s (pushByte v s) := by
  have hw' : (s.setReg spReg (s.sp - 1)).mem.wf = true := hw
  refine ⟨sp_setReg_sp _ _, ?_, fun b hb => ?_, fun r hr => ?_, rfl, rfl⟩
  · unfold pushByte
    rw [load_store hw', if_pos rfl]
  · unfold pushByte
    rw [load_store hw', if_neg hb, setReg_load]
  · unfold pushByte
    rw [store_reg, reg_setReg_ne _ _ (by simpa using hr)]

/-- The sp update of a pop. -/
theorem popSp_spec (s : State) : (popSp s).sp = s.sp + 1 ∧ RegsSame [spReg] s (popSp s) ∧ (popSp s).mem = s.mem ∧
    (popSp s).events = s.events ∧ RestSame s (popSp s) :=
  ⟨sp_setReg_sp _ _, fun r hr => reg_setReg_ne _ _ (by simpa using hr), rfl, rfl, rfl⟩

/-! ### The run's steps -/

/-- A step of a running machine, no endless string in progress. -/
theorem step_running {s : State} (hr : s.run = .running) (hs : s.inString = false) : step s = runStep s := by
  simp [step, hr, hs]

/-- A step of a running machine inside an endless string. -/
theorem step_inString {s : State} (hr : s.run = .running) (hs : s.inString = true) :
    step s = .next (printStringNext { s with inString := false }) := by
  simp [step, hr, hs]

/-- A step in AwaitInput. -/
theorem step_awaitInput {s : State} (hr : s.run = .awaitInput) : step s = awaitStep s := by
  simp [step, hr]

/-- A step while the host may act. -/
theorem step_host {s : State} (hr : HostMayAct s) : step s = hostStep s := by
  rcases hr with h | h | h <;> simp [step, h]

/-- The fetch window is the four bytes at pc. -/
theorem fetchWindow_fetched (s : State) : fetchWindow (latchOperands (traceFetch s)) =
    [s.load s.pc, s.load (s.pc + 1), s.load (s.pc + 2), s.load (s.pc + 3)] := rfl

/-- Every meaning answers a next state, but for the add/sub family where ARITH is absent. -/
theorem exec_answers_next (i : Instr) (s : State) :
    (∃ t, exec i s = .next t) ∨ (s.params.arithGiven = false ∧ exec i s = .refused .arithUnspecified) := by
  have harith : ∀ op ops, (∃ t, arith op ops s = .next t) ∨
      (s.params.arithGiven = false ∧ arith op ops s = .refused .arithUnspecified) := fun op ops => by
    unfold arith
    cases s.params.arithGiven
    · exact .inr ⟨rfl, rfl⟩
    · exact .inl ⟨_, rfl⟩
  cases i
  case arithA0 ops => exact harith .a0 ops
  case arithA1 ops => exact harith .a1 ops
  case arithA2 ops => exact harith .a2 ops
  case arithA3 ops => exact harith .a3 ops
  case arithA4 ops => exact harith .a4 ops
  case arithA5 ops => exact harith .a5 ops
  case arithA6 ops => exact harith .a6 ops
  case arithA7 ops => exact harith .a7 ops
  case arithA8 ops => exact harith .a8 ops
  case arithA9 ops => exact harith .a9 ops
  case arithAA ops => exact harith .aa ops
  case arithAB ops => exact harith .ab ops
  case arithAC ops => exact harith .ac ops
  all_goals exact .inl ⟨_, rfl⟩

end Sys2Proof.Machine
end

