-- ==== Sys2Proof/Laws/Diagnostics.lean ====
section
/-! SUPPORT. Each shared operation takes states that differ in diagnostic events and `verbose` only to states that differ so
(10_state.md R37, 46_system_io.md R223). -/

namespace Sys2Proof.Machine

theorem diagEquiv_iff (s t : State) : DiagEquiv s t ↔
    ∃ b es, t = { s with verbose := b, events := es } ∧ es.filter isCharEvent = s.events.filter isCharEvent :=
  ⟨fun h => ⟨_, _, h.1, h.2⟩, fun ⟨_, _, h, f⟩ => by subst h; exact ⟨rfl, f⟩⟩

variable {s t x y : State}

/-! ### What such states have in common -/

theorem diagEquiv_pc (h : DiagEquiv s t) : t.pc = s.pc := by
  obtain ⟨b, es, rfl, -⟩ := (diagEquiv_iff _ _).1 h; rfl

theorem diagEquiv_sp (h : DiagEquiv s t) : t.sp = s.sp := by
  obtain ⟨b, es, rfl, -⟩ := (diagEquiv_iff _ _).1 h; rfl

theorem diagEquiv_reg (h : DiagEquiv s t) (r : Reg) : t.reg r = s.reg r := by
  obtain ⟨b, es, rfl, -⟩ := (diagEquiv_iff _ _).1 h; rfl

theorem diagEquiv_load (h : DiagEquiv s t) (a : Byte) : t.load a = s.load a := by
  obtain ⟨b, es, rfl, -⟩ := (diagEquiv_iff _ _).1 h; rfl

theorem diagEquiv_params (h : DiagEquiv s t) : t.params = s.params := by
  obtain ⟨b, es, rfl, -⟩ := (diagEquiv_iff _ _).1 h; rfl

theorem diagEquiv_draws (h : DiagEquiv s t) : t.draws = s.draws := by
  obtain ⟨b, es, rfl, -⟩ := (diagEquiv_iff _ _).1 h; rfl

/-! ### The shared operations -/

theorem diagEquiv_setReg (h : DiagEquiv s t) (r : Reg) (v : Byte) : DiagEquiv (s.setReg r v) (t.setReg r v) := by
  obtain ⟨b, es, rfl, f⟩ := (diagEquiv_iff _ _).1 h; exact ⟨rfl, f⟩

theorem diagEquiv_setPc (h : DiagEquiv s t) (v : Byte) : DiagEquiv (s.setPc v) (t.setPc v) := diagEquiv_setReg h _ _

theorem diagEquiv_store (h : DiagEquiv s t) (a v : Byte) : DiagEquiv (s.store a v) (t.store a v) := by
  obtain ⟨b, es, rfl, f⟩ := (diagEquiv_iff _ _).1 h; exact ⟨rfl, f⟩

theorem diagEquiv_advance (h : DiagEquiv s t) (len : Byte) (w : Bool) : DiagEquiv (advance len w s) (advance len w t) := by
  unfold advance
  rw [diagEquiv_params h, diagEquiv_pc h]
  split
  · exact h
  · exact diagEquiv_setPc h _

theorem diagEquiv_writeAdvance (h : DiagEquiv s t) (a : Reg) (v len : Byte) :
    DiagEquiv (writeAdvance a v len s) (writeAdvance a v len t) :=
  diagEquiv_advance (diagEquiv_setReg h _ _) _ _

theorem diagEquiv_raiseFault (h : DiagEquiv s t) (q : FaultReason) : DiagEquiv (raiseFault q s) (raiseFault q t) := by
  obtain ⟨b, es, rfl, f⟩ := (diagEquiv_iff _ _).1 h
  exact ⟨rfl, by simp [f]⟩

/-- Events may differ in the diagnostic ones. -/
theorem diagEquiv_emitAll (h : DiagEquiv s t) {es es' : List Event}
    (he : es.filter isCharEvent = es'.filter isCharEvent) : DiagEquiv (emitAll es s) (emitAll es' t) := by
  obtain ⟨b, fs, rfl, f⟩ := (diagEquiv_iff _ _).1 h
  exact ⟨rfl, by simp [f, he]⟩

theorem diagEquiv_withOperands (h : DiagEquiv s t) (h' : DiagEquiv x y) (k : Nat) :
    DiagEquiv (withOperands k s x) (withOperands k t y) := by
  unfold withOperands operandOverflow
  rw [diagEquiv_params h, diagEquiv_pc h]
  split
  · exact diagEquiv_raiseFault h _
  · exact h'

theorem diagEquiv_withPush (h : DiagEquiv s t) (h' : DiagEquiv x y) : DiagEquiv (withPush s x) (withPush t y) := by
  unfold withPush
  rw [diagEquiv_sp h]
  split
  · exact diagEquiv_raiseFault h _
  · exact h'

theorem diagEquiv_withPop (h : DiagEquiv s t) (h' : DiagEquiv x y) : DiagEquiv (withPop s x) (withPop t y) := by
  unfold withPop
  rw [diagEquiv_sp h]
  split
  · exact diagEquiv_raiseFault h _
  · exact h'

theorem diagEquiv_pushByte (h : DiagEquiv s t) (v : Byte) : DiagEquiv (pushByte v s) (pushByte v t) := by
  unfold pushByte
  rw [diagEquiv_sp h]
  exact diagEquiv_store (diagEquiv_setReg h _ _) _ _

theorem diagEquiv_popSp (h : DiagEquiv s t) : DiagEquiv (popSp s) (popSp t) := by
  unfold popSp
  rw [diagEquiv_sp h]
  exact diagEquiv_setReg h _ _

theorem diagEquiv_arithApplyAll (h : DiagEquiv s t) (ws : List (ArithDest × Byte)) :
    DiagEquiv (arithApplyAll s ws) (arithApplyAll t ws) := by
  induction ws generalizing s t with
  | nil => exact h
  | cons w rest ih =>
    obtain ⟨d, v⟩ := w
    cases d with
    | reg i => exact ih (diagEquiv_setReg h _ _)
    | mem a => exact ih (diagEquiv_store h _ _)

theorem diagEquiv_printStringNext (h : DiagEquiv s t) : DiagEquiv (printStringNext s) (printStringNext t) := by
  unfold printStringNext
  have hs : scanAt t = scanAt s := by
    obtain ⟨b, es, rfl, -⟩ := (diagEquiv_iff _ _).1 h; rfl
  rw [hs, diagEquiv_params h]
  have he := diagEquiv_emitAll h (es := (scanAt s).1.map .char) rfl
  generalize emitAll ((scanAt s).1.map .char) s = s' at *
  generalize emitAll ((scanAt s).1.map .char) t = t' at *
  cases (scanAt s).2 with
  | zero a => exact diagEquiv_setPc he _
  | past => exact diagEquiv_raiseFault he _
  | endless =>
    obtain ⟨b, es, rfl, f⟩ := (diagEquiv_iff _ _).1 he
    exact ⟨rfl, f⟩

end Sys2Proof.Machine
end

