-- ==== Sys2Proof/Laws/Exec.lean ====
section
/-! SUPPORT. Once for all instructions: what executing one can do. Whole-machine rules follow from these lemmas without unfolding
the meanings again. -/

namespace Sys2Proof.Machine

/-- `t` is `s` after some register and memory writes, events added at the end, and free values drawn. -/
def Effects (s t : State) : Prop :=
  t = { s with regs := t.regs, mem := t.mem, events := t.events, draws := t.draws } ∧ s.events <+: t.events

theorem effects_refl (s : State) : Effects s s := ⟨rfl, List.prefix_rfl⟩

theorem effects_trans {s t u : State} (h : Effects s t) (h' : Effects t u) : Effects s u :=
  ⟨by rw [h'.1, h.1], h.2.trans h'.2⟩

theorem effects_setReg (s : State) (r : Reg) (v : Byte) : Effects s (s.setReg r v) := ⟨rfl, List.prefix_rfl⟩

theorem effects_setPc (s : State) (v : Byte) : Effects s (s.setPc v) := ⟨rfl, List.prefix_rfl⟩

theorem effects_store (s : State) (a v : Byte) : Effects s (s.store a v) := ⟨rfl, List.prefix_rfl⟩

theorem effects_emitAll (es : List Event) (s : State) : Effects s (emitAll es s) := ⟨rfl, List.prefix_append _ _⟩

theorem effects_advance (len : Byte) (w : Bool) (s : State) : Effects s (advance len w s) := by
  rcases advance_cases len w s with e | ⟨-, -, e⟩ <;> rw [e]
  · exact effects_setPc _ _
  · exact effects_refl _

theorem effects_writeAdvance (a : Reg) (v len : Byte) (s : State) : Effects s (writeAdvance a v len s) :=
  effects_trans (effects_setReg _ _ _) (effects_advance _ _ _)

theorem effects_pushByte (v : Byte) (s : State) : Effects s (pushByte v s) :=
  effects_trans (effects_setReg _ _ _) (effects_store _ _ _)

theorem effects_popSp (s : State) : Effects s (popSp s) := effects_setReg _ _ _

theorem effects_arithApplyAll (ws : List (ArithDest × Byte)) (s : State) : Effects s (arithApplyAll s ws) := by
  induction ws generalizing s with
  | nil => exact effects_refl s
  | cons w rest ih =>
    obtain ⟨d, v⟩ := w
    refine effects_trans ?_ (ih _)
    cases d
    · exact effects_setReg _ _ _
    · exact effects_store _ _ _

/-- Why the instruction `i` raises a fault (60_exceptions.md R240). -/
inductive FaultCause (i : Instr) (s : State) : FaultReason → Prop where
  | operand (k : Nat) (hk : usedOperands i = some k) (h : PastTop k s) : FaultCause i s .addressRange
  | arithOperand (op : ArithOp) (ops : List Byte) (hi : i = arithInstr op ops) (h : PastTop (Config.arith op).nOps.val s) :
    FaultCause i s .addressRange
  | scan (hi : i = .printString) (h : (scanAt s).2 = .past) : FaultCause i s .addressRange
  | full (hi : (∃ d, i = .push d) ∨ ∃ x, i = .call x) (h : s.sp = 0x00) : FaultCause i s .stackOverflow
  | empty (hi : (∃ d, i = .pop d) ∨ i = .ret) (h : s.sp = 0xFF) : FaultCause i s .stackUnderflow

/-- What a meaning's next state is: a fault, with events sent before it; the begin of a wait, an exit or an endless string; or
plain effects. -/
inductive Outcomes (i : Instr) (s t : State) : Prop where
  | fault (q : FaultReason) (es : List Event) (hc : FaultCause i s q) (h : t = raiseFault q (emitAll es s))
  | wait (hi : i = .getchar) (h : t = { s with run := .awaitInput, events := t.events }) (he : s.events <+: t.events)
  | exit (hi : i = .exit) (h : t = emit (.halt .exited) { s with run := .exited })
  | endless (hi : i = .printString) (he : (scanAt s).2 = .endless)
      (h : t = { emitAll ((scanAt s).1.map .char) s with inString := true })
  | effects (h : Effects s t)

/-- A meaning under the operand check. -/
theorem outcomes_withOperands {i : Instr} {k : Nat} {s body : State} (hk : usedOperands i = some k)
    (h : Outcomes i s body) : Outcomes i s (withOperands k s body) := by
  rcases withOperands_cases k s body with ⟨ho, e⟩ | ⟨-, e⟩ <;> rw [e]
  · exact .fault .addressRange [] (.operand k hk ((operandOverflow_iff k s).1 ho)) (by simp)
  · exact h

theorem outcomes_withPush {i : Instr} {s body : State} (hi : (∃ d, i = .push d) ∨ ∃ x, i = .call x)
    (h : Outcomes i s body) : Outcomes i s (withPush s body) := by
  unfold withPush
  split
  · exact .fault .stackOverflow [] (.full hi (by assumption)) (by simp)
  · exact h

theorem outcomes_withPop {i : Instr} {s body : State} (hi : (∃ d, i = .pop d) ∨ i = .ret)
    (h : Outcomes i s body) : Outcomes i s (withPop s body) := by
  unfold withPop
  split
  · exact .fault .stackUnderflow [] (.empty hi (by assumption)) (by simp)
  · exact h

theorem outcomes_writeNext {i : Instr} (hk : usedOperands i = some 1) (a : Reg) (v : Byte) (s : State) :
    Outcomes i s (writeNext a v s) :=
  outcomes_withOperands hk (.effects (effects_writeAdvance _ _ _ _))

theorem outcomes_rrNext {i : Instr} (hk : usedOperands i = some 1) (f : Byte → Byte → Byte) (a b : Reg) (s : State) :
    Outcomes i s (rrNext f a b s) :=
  outcomes_withOperands hk (.effects (effects_writeAdvance _ _ _ _))

theorem outcomes_rotateNext {i : Instr} (hk : usedOperands i = some 1) (f : Byte → Byte → Byte) (a b : Reg) (s : State) :
    Outcomes i s (rotateNext f a b s) := by
  refine outcomes_withOperands hk (.effects ?_)
  split
  · exact effects_trans ⟨rfl, List.prefix_rfl⟩ (effects_writeAdvance _ _ _ { s with draws := s.draws + 1 })
  · exact effects_writeAdvance _ _ _ _

theorem outcomes_condJumpNext {i : Instr} (hk : usedOperands i = some 2) (c : Byte → Byte → Bool) (a b : Reg)
    (target : Byte) (s : State) : Outcomes i s (condJumpNext c a b target s) :=
  outcomes_withOperands hk (.effects (effects_setPc _ _))

theorem outcomes_skipNext {i : Instr} (hk : usedOperands i = some 1) (c : Byte → Bool) (a : Reg) (n : Nibble)
    (s : State) : Outcomes i s (skipNext c a n s) :=
  outcomes_withOperands hk (.effects (effects_setPc _ _))

theorem outcomes_sendNext (i : Instr) (es : List Event) (s : State) : Outcomes i s (sendNext es s) :=
  .effects (effects_trans (effects_emitAll _ _) (effects_advance _ _ _))

theorem outcomes_printStringNext (s : State) : Outcomes .printString s (printStringNext s) := by
  unfold printStringNext
  cases h : (scanAt s).2 with
  | zero addr => exact .effects (effects_trans (effects_emitAll _ _) (effects_setPc _ _))
  | past => exact .fault .addressRange _ (.scan rfl h) rfl
  | endless => exact .endless rfl h rfl

theorem outcomes_arith {i : Instr} {op : ArithOp} {ops : List Byte} {s t : State} (hi : i = arithInstr op ops)
    (h : arith op ops s = .next t) : Outcomes i s t := by
  unfold arith at h
  split at h
  · cases h
    unfold arithNext
    rcases withOperands_cases (Config.arith op).nOps.val s (advance (arithLength (Config.arith op)) false
      (arithApplyAll s (arithWrites (Config.arith op) ops s))) with ⟨ho, e⟩ | ⟨-, e⟩ <;> rw [e]
    · exact .fault .addressRange [] (.arithOperand op ops hi ((operandOverflow_iff _ s).1 ho)) (by simp)
    · exact .effects (effects_trans (effects_arithApplyAll _ _) (effects_advance _ _ _))
  · cases h

/-- Everything that executing an instruction can do. -/
theorem exec_outcomes {i : Instr} {s t : State} (h : exec i s = .next t) : Outcomes i s t := by
  cases i
  case arithA0 ops => exact outcomes_arith (op := .a0) rfl h
  case arithA1 ops => exact outcomes_arith (op := .a1) rfl h
  case arithA2 ops => exact outcomes_arith (op := .a2) rfl h
  case arithA3 ops => exact outcomes_arith (op := .a3) rfl h
  case arithA4 ops => exact outcomes_arith (op := .a4) rfl h
  case arithA5 ops => exact outcomes_arith (op := .a5) rfl h
  case arithA6 ops => exact outcomes_arith (op := .a6) rfl h
  case arithA7 ops => exact outcomes_arith (op := .a7) rfl h
  case arithA8 ops => exact outcomes_arith (op := .a8) rfl h
  case arithA9 ops => exact outcomes_arith (op := .a9) rfl h
  case arithAA ops => exact outcomes_arith (op := .aa) rfl h
  case arithAB ops => exact outcomes_arith (op := .ab) rfl h
  case arithAC ops => exact outcomes_arith (op := .ac) rfl h
  case movImmediate d imm =>
    cases h
    refine outcomes_withOperands rfl (.effects ?_)
    split
    · exact effects_setPc _ _
    · exact effects_writeAdvance _ _ _ _
  case movRegReg a b => cases h; exact outcomes_writeNext rfl _ _ _
  case loadIndirect a b => cases h; exact outcomes_writeNext rfl _ _ _
  case storeIndirect a b =>
    cases h
    exact outcomes_withOperands rfl (.effects (effects_trans (effects_store _ _ _) (effects_advance _ _ _)))
  case copyIndirect a b =>
    cases h
    exact outcomes_withOperands rfl (.effects (effects_trans (effects_store _ _ _) (effects_advance _ _ _)))
  case movPair a b imm =>
    cases h
    exact outcomes_withOperands rfl (.effects
      (effects_trans (effects_setReg _ _ _) (effects_trans (effects_setReg _ _ _) (effects_advance _ _ _))))
  case incImm a n => cases h; exact outcomes_writeNext rfl _ _ _
  case decImm a n => cases h; exact outcomes_writeNext rfl _ _ _
  case pcOffsetPlus a n => cases h; exact outcomes_writeNext rfl _ _ _
  case pcOffsetMinus a n => cases h; exact outcomes_writeNext rfl _ _ _
  case and a b => cases h; exact outcomes_rrNext rfl _ _ _ _
  case or a b => cases h; exact outcomes_rrNext rfl _ _ _ _
  case xor a b => cases h; exact outcomes_rrNext rfl _ _ _ _
  case shl a b => cases h; exact outcomes_rrNext rfl _ _ _ _
  case shr a b => cases h; exact outcomes_rrNext rfl _ _ _ _
  case rol a b => cases h; exact outcomes_rotateNext rfl _ _ _ _
  case ror a b => cases h; exact outcomes_rotateNext rfl _ _ _ _
  case jmp target => cases h; exact outcomes_withOperands rfl (.effects (effects_setPc _ _))
  case jl a b target => cases h; exact outcomes_condJumpNext rfl _ _ _ _ _
  case jle a b target => cases h; exact outcomes_condJumpNext rfl _ _ _ _ _
  case je a b target => cases h; exact outcomes_condJumpNext rfl _ _ _ _ _
  case jge a b target => cases h; exact outcomes_condJumpNext rfl _ _ _ _ _
  case jg a b target => cases h; exact outcomes_condJumpNext rfl _ _ _ _ _
  case jne a b target => cases h; exact outcomes_condJumpNext rfl _ _ _ _ _
  case skipIfNZ a n => cases h; exact outcomes_skipNext rfl _ _ _ _
  case skipIfZ a n => cases h; exact outcomes_skipNext rfl _ _ _ _
  case push d =>
    cases h
    exact outcomes_withPush (.inl ⟨_, rfl⟩) (.effects (effects_trans (effects_pushByte _ _) (effects_advance _ _ _)))
  case pop d =>
    cases h
    refine outcomes_withPop (.inl ⟨_, rfl⟩) (.effects ?_)
    split
    · exact effects_trans (effects_popSp _) (effects_setPc _ _)
    · exact effects_trans (effects_popSp _) (effects_writeAdvance _ _ _ _)
  case call target =>
    cases h
    exact outcomes_withOperands rfl (outcomes_withPush (.inr ⟨_, rfl⟩) (.effects (effects_trans (effects_pushByte _ _) (effects_setPc _ _))))
  case ret => cases h; exact outcomes_withPop (.inr rfl) (.effects (effects_trans (effects_popSp _) (effects_setPc _ _)))
  case nop => cases h; exact .effects (effects_advance _ _ _)
  case putchar => cases h; exact outcomes_sendNext _ _ _
  case getchar =>
    cases h
    refine .wait rfl rfl ?_
    dsimp only
    split
    · exact List.prefix_append _ _
    · exact List.prefix_rfl
  case printString => cases h; exact outcomes_printStringNext s
  case dumpReg0 => cases h; exact outcomes_sendNext _ _ _
  case dumpReg1 => cases h; exact outcomes_sendNext _ _ _
  case dumpMem => cases h; exact outcomes_sendNext _ _ _
  case dumpRange => cases h; exact outcomes_sendNext _ _ _
  case dumpRegR1 => cases h; exact outcomes_sendNext _ _ _
  case genericDump id =>
    cases h
    exact outcomes_withOperands rfl (.effects (effects_trans (effects_emitAll _ _) (effects_advance _ _ _)))
  case exit => cases h; exact .exit rfl rfl
  case fileDump => cases h; exact outcomes_sendNext _ _ _

/-! ### Memory -/

theorem advance_mem (len : Byte) (w : Bool) (s : State) : (advance len w s).mem = s.mem := by rw [advance_eq]

theorem writeAdvance_mem (a : Reg) (v len : Byte) (s : State) : (writeAdvance a v len s).mem = s.mem := by
  rw [writeAdvance_eq]

/-- A meaning under the operand check changes memory as its effect does, or not at all. -/
theorem withOperands_mem (k : Nat) (s body : State) :
    (withOperands k s body).mem = body.mem ∨ (withOperands k s body).mem = s.mem := by
  rcases withOperands_cases k s body with ⟨-, e⟩ | ⟨-, e⟩ <;> rw [e]
  · exact .inr rfl
  · exact .inl rfl

theorem withOperands_mem_same {k : Nat} {s body : State} (h : body.mem = s.mem) : (withOperands k s body).mem = s.mem :=
  (withOperands_mem k s body).elim (fun e => e.trans h) id

theorem writeNext_mem (a : Reg) (v : Byte) (s : State) : (writeNext a v s).mem = s.mem :=
  withOperands_mem_same (writeAdvance_mem _ _ _ _)

theorem rotateNext_mem (f : Byte → Byte → Byte) (a b : Reg) (s : State) : (rotateNext f a b s).mem = s.mem := by
  refine withOperands_mem_same ?_
  split <;> rw [writeAdvance_mem]

theorem printStringNext_mem (s : State) : (printStringNext s).mem = s.mem := by
  unfold printStringNext
  cases (scanAt s).2 <;> rfl

/-- Writing a list of destinations keeps the canonical form. -/
theorem arithApplyAll_wf (ws : List (ArithDest × Byte)) (s : State) (hw : s.mem.wf = true) :
    (arithApplyAll s ws).mem.wf = true := by
  induction ws generalizing s with
  | nil => exact hw
  | cons w rest ih =>
    obtain ⟨d, v⟩ := w
    refine ih _ ?_
    cases d
    · exact hw
    · exact memWrite_wf hw _ _

/-- What an instruction does to memory: nothing, one store at the address the table of 20_memory.md R51 gives, or the add/sub
family's writes. -/
inductive MemChange (i : Instr) (s t : State) : Prop where
  | same (h : t.mem = s.mem)
  | indirect (a b : Reg) (v : Byte) (hi : i = .storeIndirect a b ∨ i = .copyIndirect a b)
      (h : t.mem = memWrite s.mem (s.reg a) v)
  | stack (v : Byte) (hi : (∃ d, i = .push d) ∨ ∃ x, i = .call x) (h : t.mem = memWrite s.mem (s.sp - 1) v)
  | arith (op : ArithOp) (ops : List Byte) (ws : List (ArithDest × Byte)) (hi : i = arithInstr op ops)
      (h : t.mem = (arithApplyAll s ws).mem)

theorem memChange_arith {i : Instr} {op : ArithOp} {ops : List Byte} {s t : State} (hi : i = arithInstr op ops)
    (h : arith op ops s = .next t) : MemChange i s t := by
  unfold arith at h
  split at h
  · cases h
    rcases withOperands_mem (Config.arith op).nOps.val s (advance (arithLength (Config.arith op)) false
      (arithApplyAll s (arithWrites (Config.arith op) ops s))) with e | e
    · exact .arith op ops _ hi (e.trans (advance_mem _ _ _))
    · exact .same e
  · cases h

theorem memChange_withOperands {i : Instr} {k : Nat} {s body : State} (h : MemChange i s body) :
    MemChange i s (withOperands k s body) := by
  rcases withOperands_cases k s body with ⟨-, e⟩ | ⟨-, e⟩ <;> rw [e]
  · exact .same rfl
  · exact h

theorem memChange_withPush {i : Instr} {s body : State} (h : MemChange i s body) : MemChange i s (withPush s body) := by
  unfold withPush
  split
  · exact .same rfl
  · exact h

/-- What executing an instruction does to memory. -/
theorem exec_mem {i : Instr} {s t : State} (h : exec i s = .next t) : MemChange i s t := by
  cases i
  case arithA0 ops => exact memChange_arith (op := .a0) rfl h
  case arithA1 ops => exact memChange_arith (op := .a1) rfl h
  case arithA2 ops => exact memChange_arith (op := .a2) rfl h
  case arithA3 ops => exact memChange_arith (op := .a3) rfl h
  case arithA4 ops => exact memChange_arith (op := .a4) rfl h
  case arithA5 ops => exact memChange_arith (op := .a5) rfl h
  case arithA6 ops => exact memChange_arith (op := .a6) rfl h
  case arithA7 ops => exact memChange_arith (op := .a7) rfl h
  case arithA8 ops => exact memChange_arith (op := .a8) rfl h
  case arithA9 ops => exact memChange_arith (op := .a9) rfl h
  case arithAA ops => exact memChange_arith (op := .aa) rfl h
  case arithAB ops => exact memChange_arith (op := .ab) rfl h
  case arithAC ops => exact memChange_arith (op := .ac) rfl h
  case storeIndirect a b =>
    cases h
    exact memChange_withOperands (.indirect a b _ (.inl rfl) (advance_mem _ _ _))
  case copyIndirect a b =>
    cases h
    exact memChange_withOperands (.indirect a b _ (.inr rfl) (advance_mem _ _ _))
  case push d =>
    cases h
    exact memChange_withPush (.stack _ (.inl ⟨d, rfl⟩) (advance_mem _ _ _))
  case call x =>
    cases h
    exact memChange_withOperands (memChange_withPush (.stack _ (.inr ⟨x, rfl⟩) rfl))
  case pop d =>
    cases h
    refine .same ?_
    unfold withPop
    split
    · rfl
    · split
      · rfl
      · rw [writeAdvance_mem]; rfl
  case ret =>
    cases h
    refine .same ?_
    unfold withPop
    split <;> rfl
  case movImmediate d imm =>
    cases h
    refine .same (withOperands_mem_same ?_)
    split
    · rfl
    · rw [writeAdvance_mem]
  case movPair a b imm => cases h; exact .same (withOperands_mem_same (by rw [advance_mem]; rfl))
  case rol a b => cases h; exact .same (rotateNext_mem _ _ _ _)
  case ror a b => cases h; exact .same (rotateNext_mem _ _ _ _)
  case printString => cases h; exact .same (printStringNext_mem s)
  case genericDump id => cases h; exact .same (withOperands_mem_same (by rw [advance_mem]; rfl))
  case jmp x => cases h; exact .same (withOperands_mem_same rfl)
  case jl a b x => cases h; exact .same (withOperands_mem_same rfl)
  case jle a b x => cases h; exact .same (withOperands_mem_same rfl)
  case je a b x => cases h; exact .same (withOperands_mem_same rfl)
  case jge a b x => cases h; exact .same (withOperands_mem_same rfl)
  case jg a b x => cases h; exact .same (withOperands_mem_same rfl)
  case jne a b x => cases h; exact .same (withOperands_mem_same rfl)
  case skipIfNZ a n => cases h; exact .same (withOperands_mem_same rfl)
  case skipIfZ a n => cases h; exact .same (withOperands_mem_same rfl)
  case exit => cases h; exact .same rfl
  case getchar => cases h; exact .same rfl
  case nop => cases h; exact .same (advance_mem _ _ _)
  case putchar => cases h; exact .same (advance_mem _ _ _)
  case dumpReg0 => cases h; exact .same (advance_mem _ _ _)
  case dumpReg1 => cases h; exact .same (advance_mem _ _ _)
  case dumpMem => cases h; exact .same (advance_mem _ _ _)
  case dumpRange => cases h; exact .same (advance_mem _ _ _)
  case dumpRegR1 => cases h; exact .same (advance_mem _ _ _)
  case fileDump => cases h; exact .same (advance_mem _ _ _)
  all_goals (cases h; exact .same (writeNext_mem _ _ _))

/-- Executing an instruction keeps memory's canonical form. -/
theorem exec_mem_wf {i : Instr} {s t : State} (h : exec i s = .next t) (hw : s.mem.wf = true) : t.mem.wf = true := by
  cases exec_mem h with
  | same e => rw [e]; exact hw
  | indirect a b v hi e => rw [e]; exact memWrite_wf hw _ _
  | stack v hi e => rw [e]; exact memWrite_wf hw _ _
  | arith op ops ws hi e => rw [e]; exact arithApplyAll_wf ws s hw

/-- What a step of a running machine is: the next lap of an endless string, the instruction at pc after the fetch, or an
invalid opcode. -/
theorem running_step_cases {s : State} (hr : s.run = .running) :
    (s.inString = true ∧ step s = .next (printStringNext { s with inString := false })) ∨
    (s.inString = false ∧ ∃ i,
      decode [s.load s.pc, s.load (s.pc + 1), s.load (s.pc + 2), s.load (s.pc + 3)] = .ok i ∧
      step s = exec i (latchOperands (traceFetch s))) ∨
    (s.inString = false ∧ ∃ e,
      decode [s.load s.pc, s.load (s.pc + 1), s.load (s.pc + 2), s.load (s.pc + 3)] = .error e ∧
      step s = .next (raiseFault .invalidOpcode (traceFetch s))) := by
  cases hs : s.inString
  · rw [step_running hr hs, runStep, fetchWindow_fetched]
    cases hd : decode [s.load s.pc, s.load (s.pc + 1), s.load (s.pc + 2), s.load (s.pc + 3)] with
    | ok i => exact .inr (.inl ⟨rfl, i, rfl, rfl⟩)
    | error e => exact .inr (.inr ⟨rfl, e, rfl, rfl⟩)
  · exact .inl ⟨rfl, step_inString hr hs⟩

end Sys2Proof.Machine
end

