-- ==== Sys2Proof/Laws/Host.lean ====
section
/-! SUPPORT. The laws of the host's actions (10_state.md R38, 70_reset_and_hazards.md R270 to R275). -/

namespace Sys2Proof.Machine

/-- Bytes stored from address `p` upward, not past the top (R38). -/
theorem load_storeBytes (bytes : List Byte) {p : Nat} {s : State} (hw : s.mem.wf = true) (hp : p + bytes.length ≤ 256)
    (a : Byte) :
    (storeBytes bytes (BitVec.ofNat 8 p) s).load a =
      if p ≤ a.toNat then (bytes[a.toNat - p]?).getD (s.load a) else s.load a := by
  induction bytes generalizing p s with
  | nil => simp [storeBytes]
  | cons b rest ih =>
    simp only [List.length_cons] at hp
    have ha := a.isLt
    have e : BitVec.ofNat 8 p + 1 = BitVec.ofNat 8 (p + 1) := by
      apply BitVec.eq_of_toNat_eq
      simp
    have hap : (a = BitVec.ofNat 8 p) ↔ a.toNat = p := by
      rw [BitVec.toNat_eq, BitVec.toNat_ofNat, Nat.mod_eq_of_lt (by omega)]
    change (storeBytes rest (BitVec.ofNat 8 p + 1) _).load a = _
    rw [e, ih (memWrite_wf hw _ _) (by omega), load_store hw]
    by_cases h1 : a.toNat = p
    · rw [if_pos (hap.2 h1), if_neg (by omega), if_pos (by omega), h1]
      simp
    · rw [if_neg (fun h => h1 (hap.1 h))]
      by_cases h2 : p + 1 ≤ a.toNat
      · rw [if_pos h2, if_pos (by omega), show a.toNat - p = (a.toNat - (p + 1)) + 1 by omega]
        rfl
      · rw [if_neg h2, if_neg (by omega)]

/-- The loader contract (R38). -/
theorem loadOk_iff (start : Byte) (tokens : List Int) :
    loadOk start tokens = true ↔ (∀ x ∈ tokens, 0 ≤ x ∧ x < 256) ∧ start.toNat + tokens.length ≤ 256 := by
  simp [loadOk]

/-- A load that succeeds changes memory and the load state only. -/
theorem loadTokens_eq (tokens : List Int) (s : State) :
    loadTokens tokens s = { s with mem := (loadTokens tokens s).mem, loadFailed := false } :=
  storeBytes_eq _ _ _

theorem loadTokens_wf (tokens : List Int) {s : State} (hw : s.mem.wf = true) : (loadTokens tokens s).mem.wf = true :=
  storeBytes_wf _ _ _ hw

theorem loadFails_wf (s : State) : (loadFails s).mem.wf = true := memOfFn_wf _

@[simp] theorem loadFails_run (s : State) : (loadFails s).run = s.run := rfl
@[simp] theorem loadFails_regs (s : State) : (loadFails s).regs = s.regs := rfl
@[simp] theorem loadFails_events (s : State) : (loadFails s).events = s.events := rfl
@[simp] theorem loadFails_params (s : State) : (loadFails s).params = s.params := rfl
@[simp] theorem loadFails_host (s : State) : (loadFails s).host = s.host := rfl
@[simp] theorem loadFails_inString (s : State) : (loadFails s).inString = s.inString := rfl
@[simp] theorem loadFails_loadFailed (s : State) : (loadFails s).loadFailed = true := rfl

/-- After a wipe every register is zero (R272). -/
theorem wipe_reg (s : State) (r : Reg) : (wipe s).reg r = 0x00 :=
  (by decide : ∀ r : Reg, (Vector.replicate 16 (0x00 : Byte)).get r.toFin = 0x00) r

/-- After run entry (R273): pc, sp, the sentinel, and everything else. -/
theorem start_spec {s : State} (hw : s.mem.wf = true) :
    (start s).pc = s.programStart ∧ (start s).sp = 0xFF ∧ (start s).load 0xFF = s.programStart ∧
    (start s).run = .running ∧ RegsSame [spReg, pcReg] s (start s) ∧ MemSameExcept 0xFF s (start s) ∧
    (start s).mem.wf = true ∧ (start s).events = s.events := by
  have hw' : ((s.setPc s.programStart).setReg spReg 0xFF).mem.wf = true := hw
  refine ⟨?_, sp_setReg_sp _ _, (load_store hw' _ _ _).trans (if_pos rfl), rfl, fun r hr => ?_,
    fun a ha => (load_store hw' _ _ _).trans (if_neg ha), memWrite_wf hw _ _, rfl⟩
  · change ((s.setPc s.programStart).setReg spReg 0xFF).pc = _
    rw [pc_setReg_ne _ _ (by decide), pc_setPc]
  · simp only [List.mem_cons, List.not_mem_nil, or_false, not_or] at hr
    change ((s.setPc s.programStart).setReg spReg 0xFF).reg r = _
    rw [reg_setReg_ne _ _ hr.1, reg_setPc, if_neg hr.2]

end Sys2Proof.Machine
end

