-- ==== Sys2Proof/Laws/Operations.lean ====
section
/-! SUPPORT. The laws of the instruction checks, of the add/sub family's writes and of the diagnostic snapshots. -/

namespace Sys2Proof

/-- Two nibbles side by side are the byte that packs them (30_encoding.md R72). -/
theorem append_eq_pack (a b : BitVec 4) : (a ++ b : Byte) = pack a b := rfl

end Sys2Proof

namespace Sys2Proof.Machine

/-! ### The checks of an instruction -/

theorem withOperands_pastTop {k : Nat} {s : State} (body : State) (h : PastTop k s) :
    withOperands k s body = raiseFault .addressRange s := by
  rw [withOperands, operandOverflow_eq_true h, if_pos rfl]

theorem withOperands_inRange {k : Nat} {s : State} (body : State) (h : ¬ PastTop k s) : withOperands k s body = body := by
  rw [withOperands, operandOverflow_eq_false h, if_neg (by decide)]

theorem withPush_full {s : State} (body : State) (h : s.sp = 0x00) : withPush s body = raiseFault .stackOverflow s :=
  if_pos h

theorem withPush_room {s : State} (body : State) (h : s.sp ≠ 0x00) : withPush s body = body := if_neg h

theorem withPop_empty {s : State} (body : State) (h : s.sp = 0xFF) : withPop s body = raiseFault .stackUnderflow s :=
  if_pos h

theorem withPop_nonempty {s : State} (body : State) (h : s.sp ≠ 0xFF) : withPop s body = body := if_neg h

/-! ### The add/sub family -/

/-- Every add/sub opcode executes its entry of ARITH (44_add_sub.md R180). -/
theorem exec_arithInstr (op : ArithOp) (ops : List Byte) (s : State) : exec (arithInstr op ops) s = arith op ops s := by
  cases op <;> rfl

theorem wellFormed_arithInstr (op : ArithOp) (ops : List Byte) : wellFormed (arithInstr op ops) = opsWellFormed ops := by
  cases op <;> rfl

/-- Writes applied in list order: the last write to a register or cell counts. -/
theorem arithApplyAll_spec (ws : List (ArithDest × Byte)) {s : State} (hw : s.mem.wf = true) :
    (∀ r, (arithApplyAll s ws).reg r = lastRegWrite r ws (s.reg r)) ∧
    (∀ a, (arithApplyAll s ws).load a = lastMemWrite a ws (s.load a)) := by
  induction ws generalizing s with
  | nil => exact ⟨fun _ => rfl, fun _ => rfl⟩
  | cons w rest ih =>
    obtain ⟨d, v⟩ := w
    cases d with
    | reg i =>
      obtain ⟨h1, h2⟩ := ih (s := s.setReg (BitVec.ofNat 4 i.val) v) hw
      refine ⟨fun r => ?_, h2⟩
      have hr : (r = BitVec.ofNat 4 i.val) ↔ r.toNat = i.val := by
        rw [BitVec.toNat_eq, BitVec.toNat_ofNat, Nat.mod_eq_of_lt (by omega)]
      change (arithApplyAll (s.setReg _ v) rest).reg r = _
      rw [h1, lastRegWrite, reg_setReg]
      simp [hr]
    | mem x =>
      obtain ⟨h1, h2⟩ := ih (s := s.store x v) (memWrite_wf hw _ _)
      refine ⟨h1, fun a => ?_⟩
      change (arithApplyAll (s.store x v) rest).load a = _
      rw [h2, lastMemWrite, load_store hw]

/-- No write goes to r15 (R180). -/
theorem lastRegWrite_pc (ws : List (ArithDest × Byte)) (old : Byte) : lastRegWrite pcReg ws old = old := by
  induction ws generalizing old with
  | nil => rfl
  | cons w rest ih =>
    obtain ⟨d, v⟩ := w
    cases d with
    | reg i =>
      have hi : pcReg.toNat ≠ i.val := by
        have := i.isLt
        simp [pcReg]
        omega
      rw [lastRegWrite, ih, if_neg hi]
    | mem x => rw [lastRegWrite, ih]

/-- The writes change registers and memory and nothing else. -/
theorem arithApplyAll_rest (ws : List (ArithDest × Byte)) (s : State) :
    arithApplyAll s ws = { s with regs := (arithApplyAll s ws).regs, mem := (arithApplyAll s ws).mem } := by
  induction ws generalizing s with
  | nil => rfl
  | cons w rest ih =>
    obtain ⟨d, v⟩ := w
    cases d with
    | reg i => exact ih (s.setReg (BitVec.ofNat 4 i.val) v)
    | mem x => exact ih (s.store x v)

/-! ### Snapshots (10_state.md R37) -/

theorem memSnapshot_allMem (s : State) : MemSnapshot s (allMem s) := by
  refine ⟨by simp [allMem], fun a => ?_⟩
  have := a.isLt
  simp [allMem, this]

theorem regSnapshot_allRegs (s : State) : RegSnapshot s (allRegs s) := by
  refine ⟨by simp [allRegs], fun r => ?_⟩
  have := r.isLt
  simp [allRegs, this]

theorem rangeSnapshot_rangeMem (first last : Byte) (s : State) : RangeSnapshot first last s (rangeMem first last s) := by
  refine ⟨fun h => ⟨by simp [rangeMem, rangeAddrs, h], fun i hi => ?_⟩,
    fun h => ⟨by simp [rangeMem, rangeAddrs, Nat.not_le.2 h], fun i hi => ?_⟩⟩
  · simp [rangeMem, rangeAddrs, h] at hi ⊢
    simp [hi]
  · simp [rangeMem, rangeAddrs, Nat.not_le.2 h] at hi ⊢
    simp [hi]

end Sys2Proof.Machine
end

