-- ==== Sys2Proof/Laws/PerInstr.lean ====
section
/-! SUPPORT. A family of facts about every instruction as syntax, one lemma for each constructor. -/

namespace Sys2Proof.Laws.EncodeFits

/-- The encoding of a well-formed instruction is at least its opcode byte and fits the four-byte fetch window (00_scope.md R8), and
where the opcode fixes the number of used operand bytes, it is that many bytes longer than the opcode (30_encoding.md R74). -/
def Statement (i : Instr) : Prop :=
  wellFormed i = true →
    0 < (encode i).length ∧ (encode i).length ≤ 4 ∧ ∀ k, usedOperands i = some k → (encode i).length = k + 1

/-- The statement for an instruction whose opcode fixes its length. -/
theorem statement_of_length {i : Instr} (k : Nat) (hl : (encode i).length = k + 1) (hk : k ≤ 3)
    (hu : usedOperands i = some k) : Statement i := fun _ =>
  ⟨by omega, by omega, fun j hj => by rw [hu] at hj; cases hj; exact hl⟩

/-- The statement for an instruction that carries the whole fetch window. -/
theorem statement_of_window {i : Instr} (ops : List Byte) (hl : (encode i).length = ops.length + 1)
    (hw : wellFormed i = opsWellFormed ops) (hu : usedOperands i = none) : Statement i := fun h => by
  rw [hw, opsWellFormed, beq_iff_eq] at h
  exact ⟨by omega, by omega, fun j hj => by rw [hu] at hj; cases hj⟩

theorem movImmediate (d : Reg) (imm : Byte) : Statement (.movImmediate d imm) := statement_of_length 1 rfl (by decide) rfl
theorem movRegReg (a b : Reg) : Statement (.movRegReg a b) := statement_of_length 1 rfl (by decide) rfl
theorem loadIndirect (a b : Reg) : Statement (.loadIndirect a b) := statement_of_length 1 rfl (by decide) rfl
theorem storeIndirect (a b : Reg) : Statement (.storeIndirect a b) := statement_of_length 1 rfl (by decide) rfl
theorem copyIndirect (a b : Reg) : Statement (.copyIndirect a b) := statement_of_length 1 rfl (by decide) rfl
theorem movPair (a b : Reg) (imm : Byte) : Statement (.movPair a b imm) := statement_of_length 2 rfl (by decide) rfl
theorem incImm (a : Reg) (n : Nibble) : Statement (.incImm a n) := statement_of_length 1 rfl (by decide) rfl
theorem decImm (a : Reg) (n : Nibble) : Statement (.decImm a n) := statement_of_length 1 rfl (by decide) rfl
theorem pcOffsetPlus (a : Reg) (n : Nibble) : Statement (.pcOffsetPlus a n) := statement_of_length 1 rfl (by decide) rfl
theorem pcOffsetMinus (a : Reg) (n : Nibble) : Statement (.pcOffsetMinus a n) := statement_of_length 1 rfl (by decide) rfl
theorem and (a b : Reg) : Statement (.and a b) := statement_of_length 1 rfl (by decide) rfl
theorem or (a b : Reg) : Statement (.or a b) := statement_of_length 1 rfl (by decide) rfl
theorem xor (a b : Reg) : Statement (.xor a b) := statement_of_length 1 rfl (by decide) rfl
theorem shl (a b : Reg) : Statement (.shl a b) := statement_of_length 1 rfl (by decide) rfl
theorem shr (a b : Reg) : Statement (.shr a b) := statement_of_length 1 rfl (by decide) rfl
theorem rol (a b : Reg) : Statement (.rol a b) := statement_of_length 1 rfl (by decide) rfl
theorem ror (a b : Reg) : Statement (.ror a b) := statement_of_length 1 rfl (by decide) rfl
theorem jmp (target : Byte) : Statement (.jmp target) := statement_of_length 1 rfl (by decide) rfl
theorem jl (a b : Reg) (target : Byte) : Statement (.jl a b target) := statement_of_length 2 rfl (by decide) rfl
theorem jle (a b : Reg) (target : Byte) : Statement (.jle a b target) := statement_of_length 2 rfl (by decide) rfl
theorem je (a b : Reg) (target : Byte) : Statement (.je a b target) := statement_of_length 2 rfl (by decide) rfl
theorem jge (a b : Reg) (target : Byte) : Statement (.jge a b target) := statement_of_length 2 rfl (by decide) rfl
theorem jg (a b : Reg) (target : Byte) : Statement (.jg a b target) := statement_of_length 2 rfl (by decide) rfl
theorem jne (a b : Reg) (target : Byte) : Statement (.jne a b target) := statement_of_length 2 rfl (by decide) rfl
theorem skipIfNZ (a : Reg) (n : Nibble) : Statement (.skipIfNZ a n) := statement_of_length 1 rfl (by decide) rfl
theorem skipIfZ (a : Reg) (n : Nibble) : Statement (.skipIfZ a n) := statement_of_length 1 rfl (by decide) rfl
theorem push (d : Reg) : Statement (.push d) := statement_of_length 0 rfl (by decide) rfl
theorem pop (d : Reg) : Statement (.pop d) := statement_of_length 0 rfl (by decide) rfl
theorem arithA0 (ops : List Byte) : Statement (.arithA0 ops) := statement_of_window ops rfl rfl rfl
theorem arithA1 (ops : List Byte) : Statement (.arithA1 ops) := statement_of_window ops rfl rfl rfl
theorem arithA2 (ops : List Byte) : Statement (.arithA2 ops) := statement_of_window ops rfl rfl rfl
theorem arithA3 (ops : List Byte) : Statement (.arithA3 ops) := statement_of_window ops rfl rfl rfl
theorem arithA4 (ops : List Byte) : Statement (.arithA4 ops) := statement_of_window ops rfl rfl rfl
theorem arithA5 (ops : List Byte) : Statement (.arithA5 ops) := statement_of_window ops rfl rfl rfl
theorem arithA6 (ops : List Byte) : Statement (.arithA6 ops) := statement_of_window ops rfl rfl rfl
theorem arithA7 (ops : List Byte) : Statement (.arithA7 ops) := statement_of_window ops rfl rfl rfl
theorem arithA8 (ops : List Byte) : Statement (.arithA8 ops) := statement_of_window ops rfl rfl rfl
theorem arithA9 (ops : List Byte) : Statement (.arithA9 ops) := statement_of_window ops rfl rfl rfl
theorem arithAA (ops : List Byte) : Statement (.arithAA ops) := statement_of_window ops rfl rfl rfl
theorem arithAB (ops : List Byte) : Statement (.arithAB ops) := statement_of_window ops rfl rfl rfl
theorem arithAC (ops : List Byte) : Statement (.arithAC ops) := statement_of_window ops rfl rfl rfl
theorem call (target : Byte) : Statement (.call target) := statement_of_length 1 rfl (by decide) rfl
theorem ret : Statement (.ret) := statement_of_length 0 rfl (by decide) rfl
theorem nop : Statement (.nop) := statement_of_length 0 rfl (by decide) rfl
theorem putchar : Statement (.putchar) := statement_of_length 0 rfl (by decide) rfl
theorem getchar : Statement (.getchar) := statement_of_length 0 rfl (by decide) rfl
theorem printString : Statement (.printString) := statement_of_length 0 rfl (by decide) rfl
theorem dumpReg0 : Statement (.dumpReg0) := statement_of_length 0 rfl (by decide) rfl
theorem dumpReg1 : Statement (.dumpReg1) := statement_of_length 0 rfl (by decide) rfl
theorem dumpMem : Statement (.dumpMem) := statement_of_length 0 rfl (by decide) rfl
theorem dumpRange : Statement (.dumpRange) := statement_of_length 0 rfl (by decide) rfl
theorem dumpRegR1 : Statement (.dumpRegR1) := statement_of_length 0 rfl (by decide) rfl
theorem genericDump (id : Byte) : Statement (.genericDump id) := statement_of_length 1 rfl (by decide) rfl
theorem exit : Statement (.exit) := statement_of_length 0 rfl (by decide) rfl
theorem fileDump : Statement (.fileDump) := statement_of_length 0 rfl (by decide) rfl

end Sys2Proof.Laws.EncodeFits
end

