-- ==== Sys2Proof/Laws/Scan.lean ====
section
/-! SUPPORT. The laws of printString's scan (46_system_io.md R213): how it ends at a zero byte, past address 0xFF, or never. -/

namespace Sys2Proof.Machine

/-- The scan address j characters after the first. -/
theorem ofNat_scanAddr (pc : Byte) (j : Nat) : BitVec.ofNat 8 (pc.toNat + 1 + j) = pc + 1 + BitVec.ofNat 8 j := by
  apply BitVec.eq_of_toNat_eq
  simp

theorem ofNat_next (a j : Nat) : BitVec.ofNat 8 ((BitVec.ofNat 8 a).toNat + 1 + j) = BitVec.ofNat 8 (a + (j + 1)) := by
  apply BitVec.eq_of_toNat_eq
  simp
  omega

/-- A scan that meets `n` characters and then a zero byte, within range or under wrap. -/
theorem scanString_zero {m : Memory} {mode : AddrOverflow} {n fuel a : Nat} (hf : n < fuel)
    (hm : mode = .wrap ∨ a + n ≤ 255) (h : ∀ j, j < n → memRead m (BitVec.ofNat 8 (a + j)) ≠ 0)
    (hz : memRead m (BitVec.ofNat 8 (a + n)) = 0) :
    scanString m mode fuel a =
      ((List.range n).map (fun j => memRead m (BitVec.ofNat 8 (a + j))), .zero (BitVec.ofNat 8 (a + n))) := by
  induction n generalizing fuel a with
  | zero =>
    obtain ⟨f, rfl⟩ : ∃ f, fuel = f + 1 := ⟨fuel - 1, by omega⟩
    unfold scanString
    rw [if_neg (by rcases hm with h | h <;> simp [h]; omega)]
    simp only [Nat.add_zero] at hz
    simp [hz]
  | succ n ih =>
    obtain ⟨f, rfl⟩ : ∃ f, fuel = f + 1 := ⟨fuel - 1, by omega⟩
    unfold scanString
    rw [if_neg (by rcases hm with h | h <;> simp [h]; omega)]
    have h0 := h 0 (by omega)
    simp only [Nat.add_zero] at h0
    dsimp only
    rw [if_neg h0, ih (fuel := f) (a := (BitVec.ofNat 8 a).toNat + 1) (by omega)
      (hm.imp id fun h => by rw [BitVec.toNat_ofNat]; omega)
      (fun j hj => by rw [ofNat_next]; exact h (j + 1) (by omega)) (by rw [ofNat_next]; exact hz)]
    simp only [ofNat_next]
    rw [List.range_succ_eq_map]
    simp [Function.comp_def]

/-- A scan under fault that meets no zero byte up to 0xFF. -/
theorem scanString_past {m : Memory} {n fuel a : Nat} (hf : n < fuel) (ha : a + n = 256)
    (h : ∀ j, j < n → memRead m (BitVec.ofNat 8 (a + j)) ≠ 0) :
    scanString m .fault fuel a = ((List.range n).map (fun j => memRead m (BitVec.ofNat 8 (a + j))), .past) := by
  induction n generalizing fuel a with
  | zero =>
    obtain ⟨f, rfl⟩ : ∃ f, fuel = f + 1 := ⟨fuel - 1, by omega⟩
    unfold scanString
    rw [if_pos ⟨rfl, by omega⟩]
    rfl
  | succ n ih =>
    obtain ⟨f, rfl⟩ : ∃ f, fuel = f + 1 := ⟨fuel - 1, by omega⟩
    unfold scanString
    rw [if_neg (by omega)]
    have h0 := h 0 (by omega)
    simp only [Nat.add_zero] at h0
    have ha' : (BitVec.ofNat 8 a).toNat = a := by rw [BitVec.toNat_ofNat]; omega
    dsimp only
    rw [if_neg h0, ih (fuel := f) (a := (BitVec.ofNat 8 a).toNat + 1) (by omega) (by omega)
      (fun j hj => by rw [ofNat_next]; exact h (j + 1) (by omega))]
    simp only [ofNat_next]
    rw [List.range_succ_eq_map]
    simp [Function.comp_def]

/-- A scan under wrap over a memory without a zero byte. -/
theorem scanString_endless {m : Memory} (hm : ∀ a, memRead m a ≠ 0) (fuel a : Nat) :
    scanString m .wrap fuel a = ((List.range fuel).map (fun j => memRead m (BitVec.ofNat 8 (a + j))), .endless) := by
  induction fuel generalizing a with
  | zero => rfl
  | succ n ih =>
    unfold scanString
    rw [if_neg (by simp)]
    dsimp only
    rw [if_neg (hm _), ih]
    simp only [ofNat_next]
    rw [List.range_succ_eq_map]
    simp [Function.comp_def]

/-- A scan that ends past 0xFF ran under fault over no zero byte. -/
theorem of_scanString_past {m : Memory} {mode : AddrOverflow} {fuel a : Nat} (h : (scanString m mode fuel a).2 = .past) :
    mode = .fault ∧ ∀ b, a ≤ b → b ≤ 255 → memRead m (BitVec.ofNat 8 b) ≠ 0 := by
  induction fuel generalizing a with
  | zero => cases h
  | succ n ih =>
    unfold scanString at h
    split at h
    · rename_i hc
      exact ⟨hc.1, fun b h1 h2 => absurd hc.2 (by omega)⟩
    · dsimp only at h
      split at h
      · cases h
      · rename_i hn hc
        obtain ⟨h1, h2⟩ := ih h
        refine ⟨h1, fun b hb hb' => ?_⟩
        have ha : a ≤ 255 := by omega
        have hmod : (BitVec.ofNat 8 a).toNat = a := by rw [BitVec.toNat_ofNat]; omega
        by_cases he : b = a
        · rw [he]; exact hc
        · exact h2 b (by omega) hb'

/-- A scan that uses all its reads under fault began too low for them. -/
theorem of_scanString_endless {m : Memory} {mode : AddrOverflow} {fuel a : Nat}
    (h : (scanString m mode fuel a).2 = .endless) :
    (mode = .fault → fuel = 0 ∨ a + fuel ≤ 256) ∧
    ∀ j, j < fuel → memRead m (BitVec.ofNat 8 (a + j)) ≠ 0 := by
  induction fuel generalizing a with
  | zero => exact ⟨fun _ => .inl rfl, fun j hj => absurd hj (Nat.not_lt_zero _)⟩
  | succ n ih =>
    unfold scanString at h
    split at h
    · cases h
    · dsimp only at h
      split at h
      · cases h
      · rename_i hn hc
        obtain ⟨h1, h2⟩ := ih h
        refine ⟨fun hm => .inr ?_, fun j hj => ?_⟩
        · have ha : a ≤ 255 := by
            by_contra hx
            exact hn ⟨hm, by omega⟩
          have hmod : (BitVec.ofNat 8 a).toNat = a := by rw [BitVec.toNat_ofNat]; omega
          rcases h1 hm with h | h <;> omega
        · cases j with
          | zero => simpa using hc
          | succ j =>
            have := h2 j (by omega)
            rwa [ofNat_next] at this

/-- An endless printString runs under wrap, over a memory without a zero byte. -/
theorem of_scanAt_endless {s : State} (h : (scanAt s).2 = .endless) :
    s.params.addrOverflow = .wrap ∧ ∀ a, s.load a ≠ 0 := by
  obtain ⟨h1, h2⟩ := of_scanString_endless h
  refine ⟨?_, fun a => ?_⟩
  · cases hm : s.params.addrOverflow with
    | wrap => rfl
    | fault => rcases h1 hm with h | h <;> omega
  · have hj := h2 (a - (s.pc + 1)).toNat (a - (s.pc + 1)).isLt
    rw [ofNat_scanAddr] at hj
    have e : s.pc + 1 + BitVec.ofNat 8 (a - (s.pc + 1)).toNat = a := by
      rw [BitVec.ofNat_toNat, BitVec.setWidth_eq]
      bv_omega
    rwa [e] at hj

/-- A printString that faults runs under fault and meets no zero byte up to 0xFF. -/
theorem of_scanAt_past {s : State} (h : (scanAt s).2 = .past) :
    s.params.addrOverflow = .fault ∧ ∀ j, s.pc.toNat + 1 + j ≤ 0xFF → s.load (s.pc + 1 + BitVec.ofNat 8 j) ≠ 0 := by
  obtain ⟨h1, h2⟩ := of_scanString_past h
  refine ⟨h1, fun j hj => ?_⟩
  have := h2 (s.pc.toNat + 1 + j) (by omega) hj
  rwa [ofNat_scanAddr] at this

end Sys2Proof.Machine
end

