-- ==== Sys2Proof/Tests/Slice0.lean ====
section
/-! SUPPORT. The model's own tests. Expected results come from the vectors of 95_test_vectors.md (V1 to V106) and from the rules
named in each comment; the last part gives, for each statement with hypotheses, states and operands that meet them. -/

namespace Sys2Proof.Tests

open Sys2Proof Sys2Proof.Machine

/-! ### Helpers -/

/-- A running machine at pc `a` with `bytes` there, sp = 0xFF, further registers and cells as listed, flags off. -/
def mk (a : Byte) (bytes : List Byte) (regs cells : List (Byte × Byte)) : State :=
  let s0 := { State.reset with run := .running, verbose := false, promptOnInput := false, programStart := 0x00 }
  let s1 := storeBytes bytes a ((s0.setReg spReg 0xFF).setPc a)
  let s2 := regs.foldl (fun s p => s.setReg (p.1.setWidth 4) p.2) s1
  cells.foldl (fun s p => s.store p.1 p.2) s2

/-- The next state, where there is one. -/
def after (r : Result) : State :=
  match r with
  | .next s => s
  | .fault _ => State.reset
  | .refused _ => State.reset

/-- The state after one step from `mk`. -/
def ran (a : Byte) (bytes : List Byte) (regs cells : List (Byte × Byte)) : State := after (step (mk a bytes regs cells))

/-- The same machine with other parameters. -/
def ranWith (p : Params) (a : Byte) (bytes : List Byte) (regs cells : List (Byte × Byte)) : State :=
  after (step { mk a bytes regs cells with params := p })

/-- Parameters that take every second reading of R10. -/
def otherParams : Params where
  notTaken     := .literal
  pcWrite      := .bypass
  shr          := .logicalRight
  rot          := .draw
  addrOverflow := .wrap
  putsEnd      := .afterZero
  arithGiven   := false

/-- A machine in which the host has the actions `acts` pending. -/
def hostState (acts : List HostAction) : State := { mk 0x00 [] [] [] with run := .idle, host := acts }

/-- A memory without a zero byte, every cell 0x41. -/
def fullMem : Memory := (List.range 256).map fun a => (a, 0x41)

/-- An entry of the form R180 allows: x[1] <- x[2] + next1, then memory[x[2]] <- x[1] - the low nibble of next1. -/
def sampleEntry : ArithEntry where
  nOps := 1
  exec := fun regs _ _ _ =>
    [⟨.reg 1, false, .reg 2, .byte ⟨0, by decide⟩⟩, ⟨.mem (regs 2), true, .reg 1, .low ⟨0, by decide⟩⟩]

/-! ### Well-formed instructions: each check refuses an ill-formed term -/

theorem test_wellFormed_refuses :
    wellFormed (.arithA0 []) = false ∧ wellFormed (.arithA1 [1]) = false ∧ wellFormed (.arithA2 [1, 2]) = false ∧
    wellFormed (.arithA3 [1, 2, 3, 4]) = false ∧ wellFormed (.arithA4 []) = false ∧ wellFormed (.arithA5 [1]) = false ∧
    wellFormed (.arithA6 [1, 2]) = false ∧ wellFormed (.arithA7 []) = false ∧ wellFormed (.arithA8 [1]) = false ∧
    wellFormed (.arithA9 [1, 2]) = false ∧ wellFormed (.arithAA []) = false ∧ wellFormed (.arithAB [1]) = false ∧
    wellFormed (.arithAC [1, 2, 3, 4]) = false := by decide

theorem test_wellFormed_accepts :
    wellFormed (.arithA0 [1, 2, 3]) = true ∧ wellFormed (.arithAC [0, 0, 0]) = true ∧
    wellFormed (.movImmediate 15 0xFF) = true ∧ wellFormed .exit = true := by decide

/-! ### Decoding: a word for every constructor, written from 30_encoding.md R73, R77 -/

theorem test_decode_moves :
    decode [0b00001101, 0b10000001] = .ok (.movImmediate 13 0x81) ∧
    decode [0b00010000, 0b00100011] = .ok (.movRegReg 2 3) ∧
    decode [0b00010001, 0b00010010] = .ok (.loadIndirect 1 2) ∧
    decode [0b00010010, 0b00100001] = .ok (.storeIndirect 2 1) ∧
    decode [0b00010011, 0b00110100] = .ok (.copyIndirect 3 4) ∧
    decode [0b00010100, 0b00100011, 0b01111111] = .ok (.movPair 2 3 0x7F) ∧
    decode [0b00010101, 0b00011111] = .ok (.incImm 1 15) ∧
    decode [0b00010110, 0b01010011] = .ok (.decImm 5 3) ∧
    decode [0b00010111, 0b00110101] = .ok (.pcOffsetPlus 3 5) ∧
    decode [0b00011000, 0b11100001] = .ok (.pcOffsetMinus 14 1) := by decide

theorem test_decode_logicShift :
    decode [0b00100000, 0b00010010] = .ok (.and 1 2) ∧
    decode [0b00110000, 0b11110000] = .ok (.or 15 0) ∧
    decode [0b01000000, 0b01000101] = .ok (.xor 4 5) ∧
    decode [0b01010000, 0b00010010] = .ok (.shl 1 2) ∧
    decode [0b01010001, 0b00010010] = .ok (.shr 1 2) ∧
    decode [0b01010010, 0b10010010] = .ok (.rol 9 2) ∧
    decode [0b01010011, 0b00001010] = .ok (.ror 0 10) := by decide

theorem test_decode_branch :
    decode [0b01110000, 0b00001000] = .ok (.jmp 0x08) ∧
    decode [0b01110001, 0b00010010, 0b00000100] = .ok (.jl 1 2 0x04) ∧
    decode [0b01110010, 0b00010010, 0b00100000] = .ok (.jle 1 2 0x20) ∧
    decode [0b01110011, 0b00110100, 0b00110000] = .ok (.je 3 4 0x30) ∧
    decode [0b01110100, 0b00010010, 0b01000000] = .ok (.jge 1 2 0x40) ∧
    decode [0b01110101, 0b00010010, 0b01000000] = .ok (.jg 1 2 0x40) ∧
    decode [0b01110110, 0b00010010, 0b01010000] = .ok (.jne 1 2 0x50) ∧
    decode [0b01110111, 0b00010011] = .ok (.skipIfNZ 1 3) ∧
    decode [0b01111000, 0b00001111] = .ok (.skipIfZ 0 15) := by decide

theorem test_decode_stack :
    decode [0b10000110] = .ok (.push 6) ∧ decode [0b10011001] = .ok (.pop 9) ∧
    decode [0b11000010, 0b00000111] = .ok (.call 0x07) ∧ decode [0b11000011] = .ok .ret := by decide

theorem test_decode_arith :
    decode [0b10100000, 1, 2, 3] = .ok (.arithA0 [1, 2, 3]) ∧ decode [0b10100001, 1, 2, 3] = .ok (.arithA1 [1, 2, 3]) ∧
    decode [0b10100010, 1, 2, 3] = .ok (.arithA2 [1, 2, 3]) ∧ decode [0b10100011, 1, 2, 3] = .ok (.arithA3 [1, 2, 3]) ∧
    decode [0b10100100, 1, 2, 3] = .ok (.arithA4 [1, 2, 3]) ∧ decode [0b10100101, 1, 2, 3] = .ok (.arithA5 [1, 2, 3]) ∧
    decode [0b10100110, 1, 2, 3] = .ok (.arithA6 [1, 2, 3]) ∧ decode [0b10100111, 1, 2, 3] = .ok (.arithA7 [1, 2, 3]) ∧
    decode [0b10101000, 1, 2, 3] = .ok (.arithA8 [1, 2, 3]) ∧ decode [0b10101001, 1, 2, 3] = .ok (.arithA9 [1, 2, 3]) ∧
    decode [0b10101010, 1, 2, 3] = .ok (.arithAA [1, 2, 3]) ∧ decode [0b10101011, 1, 2, 3] = .ok (.arithAB [1, 2, 3]) ∧
    decode [0b10101100, 1, 2, 3] = .ok (.arithAC [1, 2, 3]) := by decide

theorem test_decode_systemIo :
    decode [0b11010000] = .ok .nop ∧ decode [0b11100000] = .ok .putchar ∧ decode [0b11100001] = .ok .getchar ∧
    decode [0b11100010] = .ok .printString ∧ decode [0b11101000] = .ok .dumpReg0 ∧ decode [0b11101001] = .ok .dumpReg1 ∧
    decode [0b11101010] = .ok .dumpMem ∧ decode [0b11101011] = .ok .dumpRange ∧ decode [0b11101100] = .ok .dumpRegR1 ∧
    decode [0b11101101, 0b11111101] = .ok (.genericDump 0xFD) ∧ decode [0b11101110] = .ok .exit ∧
    decode [0b11101111] = .ok .fileDump := by decide

/-- R77 counts 100 defined opcode bytes, R78 the bytes at the ends of the invalid ranges. -/
theorem test_defined_count : ((List.range 256).filter fun k => definedOpcode (BitVec.ofNat 8 k)).length = 100 := by decide

theorem test_decode_invalid :
    decode [0x19, 0, 0, 0] = .error (.invalidOpcode 0x19) ∧ decode [0xAD, 0, 0, 0] = .error (.invalidOpcode 0xAD) ∧
    decode [0xC1] = .error (.invalidOpcode 0xC1) ∧ decode [0xFF] = .error (.invalidOpcode 0xFF) := by decide

/-- The opcode table numbers a row's bits from the first byte: 0x12 is byte 0, and bytes above `nbits` are 0. -/
theorem test_tableWord :
    decodeTableWord 16 0x2112 = some (.storeIndirect 2 1) ∧ decodeTableWord 8 0x12 = some (.storeIndirect 0 0) ∧
    decodeTableWord 24 0x7F2314 = some (.movPair 2 3 0x7F) ∧ decodeTableWord 8 0x19 = none := by decide

/-- R90: the assembly forms; program P5's first line; register digits above 9 as log 24 chooses. -/
theorem test_assembly :
    asmText (.movImmediate 1 0xEE) = "movImmediate r1, 0xEE" ∧ asmText (.xor 10 15) = "xor rA, rF" ∧
    asmText (.storeIndirect 2 1) = "storeIndirect [r2], r1" ∧ asmText (.jl 1 2 0x04) = "jl r1, r2, 0x04" ∧
    assemble [.instr (.movImmediate 1 0x41), .printText [0x48, 0x69], .data [0x07], .instr .exit] =
      [0x01, 0x41, 0xE2, 0x48, 0x69, 0x00, 0x07, 0xEE] := by decide

/-! ### Register and memory moves -/

/-- V1, V2, V4 (fault). -/
theorem test_movImmediate :
    (ran 0x00 [0x05, 0xFF] [] []).reg 5 = 0xFF ∧ (ran 0x00 [0x05, 0xFF] [] []).pc = 0x02 ∧
    (ran 0x10 [0x0F, 0x20] [] []).pc = 0x20 ∧
    (ran 0xFF [0x01] [] []).status = .faulted .addressRange 0xFF 0x01 := by decide

/-- V4 (wrap): x[1] = memory[00], pc = 01. -/
theorem test_movImmediate_wrap :
    (ranWith otherParams 0xFF [0x01] [] [(0x00, 0x77)]).reg 1 = 0x77 ∧
    (ranWith otherParams 0xFF [0x01] [] [(0x00, 0x77)]).pc = 0x01 := by decide

/-- V5, V6. -/
theorem test_movRegReg :
    (ran 0x00 [0x10, 0x23] [(3, 0x07)] []).reg 2 = 0x07 ∧ (ran 0x30 [0x10, 0x1F] [] []).reg 1 = 0x30 := by decide

/-- V7, both readings. -/
theorem test_movRegReg_pc :
    (ran 0x00 [0x10, 0xF3] [(3, 0x40)] []).pc = 0x42 ∧
    (ranWith otherParams 0x00 [0x10, 0xF3] [(3, 0x40)] []).pc = 0x40 := by decide

/-- V8, V9, V10. -/
theorem test_loadIndirect :
    (ran 0x00 [0x11, 0x12] [(2, 0x80)] [(0x80, 0x5A)]).reg 1 = 0x5A ∧
    (ran 0x00 [0x11, 0x22] [(2, 0x80)] [(0x80, 0x5A)]).reg 2 = 0x5A ∧
    (ran 0x40 [0x11, 0x1F] [] []).reg 1 = 0x11 := by decide

/-- V12, V13. -/
theorem test_storeIndirect :
    (ran 0x00 [0x12, 0x21] [(2, 0x08), (1, 0xEE)] []).load 0x08 = 0xEE ∧
    (ran 0x00 [0x12, 0x22] [(2, 0x30)] []).load 0x30 = 0x30 := by decide

/-- V14: the instruction overwrites its own operand byte and runs with the latched one. -/
theorem test_storeIndirect_self :
    (ran 0x10 [0x12, 0x12] [(1, 0x11), (2, 0x42)] []).load 0x11 = 0x42 ∧
    (ran 0x10 [0x12, 0x12] [(1, 0x11), (2, 0x42)] []).latch.next1 = 0x12 ∧
    (ran 0x10 [0x12, 0x12] [(1, 0x11), (2, 0x42)] []).pc = 0x12 := by decide

/-- V15. -/
theorem test_copyIndirect :
    (ran 0x00 [0x13, 0x34] [(3, 0x40), (4, 0x41)] [(0x41, 0x99)]).load 0x40 = 0x99 ∧
    (ran 0x00 [0x13, 0x34] [(3, 0x40), (4, 0x41)] [(0x41, 0x99)]).reg 3 = 0x40 := by decide

/-- V16, V18. -/
theorem test_movPair :
    (ran 0x00 [0x14, 0x23, 0x7F] [] []).reg 2 = 0x7F ∧ (ran 0x00 [0x14, 0x23, 0x7F] [] []).reg 3 = 0x7F ∧
    (ran 0x00 [0x14, 0x23, 0x7F] [] []).pc = 0x03 ∧
    (ran 0xFE [0x14, 0x23] [] []).status = .faulted .addressRange 0xFE 0x14 := by decide

/-- V17, both readings. -/
theorem test_movPair_pc :
    (ran 0x00 [0x14, 0xF1, 0x10] [] []).pc = 0x13 ∧ (ran 0x00 [0x14, 0xF1, 0x10] [] []).reg 1 = 0x10 ∧
    (ranWith otherParams 0x00 [0x14, 0xF1, 0x10] [] []).pc = 0x10 := by decide

/-- V20, V22. -/
theorem test_incImm :
    (ran 0x00 [0x15, 0x1F] [(1, 0xF8)] []).reg 1 = 0x07 ∧ (ran 0x20 [0x15, 0xFF] [] []).pc = 0x31 := by decide

/-- V23, V24, V25. -/
theorem test_decImm :
    (ran 0x00 [0x16, 0x53] [(5, 0x10)] []).reg 5 = 0x0D ∧ (ran 0x00 [0x16, 0x01] [] []).reg 0 = 0xFF ∧
    (ran 0x00 [0x16, 0x3F] [(3, 0x03)] []).reg 3 = 0xF4 := by decide

/-- V26, V27. -/
theorem test_pcOffsetPlus :
    (ran 0x10 [0x17, 0x35] [] []).reg 3 = 0x15 ∧ (ran 0xFE [0x17, 0x33] [] []).reg 3 = 0x01 ∧
    (ran 0xFE [0x17, 0x33] [] []).pc = 0x00 := by decide

/-- V28, V29. -/
theorem test_pcOffsetMinus :
    (ran 0x10 [0x18, 0x35] [] []).reg 3 = 0x0B ∧ (ran 0x02 [0x18, 0x35] [] []).reg 3 = 0xFD := by decide

/-! ### Logic, shifts and rotates -/

/-- V30, V31, V32, V33. -/
theorem test_logic :
    (ran 0x00 [0x20, 0x12] [(1, 0xF0), (2, 0x3C)] []).reg 1 = 0x30 ∧
    (ran 0x00 [0x30, 0x12] [(1, 0xF0), (2, 0x3C)] []).reg 1 = 0xFC ∧
    (ran 0x00 [0x40, 0x12] [(1, 0xF0), (2, 0x3C)] []).reg 1 = 0xCC ∧
    (ran 0x00 [0x40, 0x44] [(4, 0x5A)] []).reg 4 = 0x00 := by decide

/-- V35, V36, V37, V38. -/
theorem test_shl :
    (ran 0x00 [0x50, 0x12] [(1, 0x81), (2, 0x08)] []).reg 1 = 0x81 ∧
    (ran 0x00 [0x50, 0x12] [(1, 0x81), (2, 0x09)] []).reg 1 = 0x02 ∧
    (ran 0x00 [0x50, 0x12] [(1, 0x01), (2, 0x07)] []).reg 1 = 0x80 ∧
    (ran 0x00 [0x50, 0x11] [(1, 0x03)] []).reg 1 = 0x18 := by decide

/-- V39, V40, both readings. -/
theorem test_shr :
    (ran 0x00 [0x51, 0x12] [(1, 0x81), (2, 0x01)] []).reg 1 = 0x02 ∧
    (ranWith otherParams 0x00 [0x51, 0x12] [(1, 0x81), (2, 0x01)] []).reg 1 = 0x40 ∧
    (ran 0x00 [0x51, 0x12] [(1, 0x80), (2, 0x07)] []).reg 1 = 0x00 ∧
    (ranWith otherParams 0x00 [0x51, 0x12] [(1, 0x80), (2, 0x07)] []).reg 1 = 0x01 := by decide

/-- V41, V42, V43 (under both readings, the destination field is 0). -/
theorem test_rol :
    (ran 0x00 [0x52, 0x12] [(1, 0x81), (2, 0x01)] []).reg 1 = 0x03 ∧
    (ran 0x00 [0x52, 0x12] [(1, 0x81), (2, 0x00)] []).reg 1 = 0x81 ∧
    (ran 0x00 [0x52, 0x02] [(0, 0x01), (2, 0x07)] []).reg 0 = 0x80 ∧
    (ranWith otherParams 0x00 [0x52, 0x02] [(0, 0x01), (2, 0x07)] []).reg 0 = 0x80 := by decide

/-- V44, V45, V46. -/
theorem test_ror :
    (ran 0x00 [0x53, 0x12] [(1, 0x81), (2, 0x01)] []).reg 1 = 0xC0 ∧
    (ranWith otherParams 0x00 [0x53, 0x02] [(0, 0x01), (2, 0x01)] []).reg 0 = 0x80 ∧
    (ran 0x00 [0x53, 0x02] [(0, 0x5A), (2, 0x10)] []).reg 0 = 0x5A := by decide

/-- V41 under draw: the fields that the rule does fix. -/
theorem test_rol_draw :
    (ranWith otherParams 0x00 [0x52, 0x12] [(1, 0x81), (2, 0x01)] []).pc = 0x02 ∧
    (ranWith otherParams 0x00 [0x52, 0x12] [(1, 0x81), (2, 0x01)] []).draws = 1 := by decide

/-! ### Jumps and skips -/

/-- V47, V48. -/
theorem test_jmp :
    (ran 0x06 [0x70, 0x08] [] []).pc = 0x08 ∧
    (ran 0xFF [0x70] [] []).status = .faulted .addressRange 0xFF 0x70 := by decide

/-- V49, V50 (both readings), V58. -/
theorem test_jl :
    (ran 0x07 [0x71, 0x12, 0x04] [(1, 0x41), (2, 0x44)] []).pc = 0x04 ∧
    (ran 0x07 [0x71, 0x12, 0x04] [(1, 0x44), (2, 0x44)] []).pc = 0x0A ∧
    (ranWith otherParams 0x07 [0x71, 0x12, 0x04] [(1, 0x44), (2, 0x44)] []).pc = 0x09 ∧
    (ran 0xFE [0x71, 0x12] [] []).status = .faulted .addressRange 0xFE 0x71 := by decide

/-- V51; rule R153: 45 ≤ 44 is false. -/
theorem test_jle :
    (ran 0x00 [0x72, 0x12, 0x20] [(1, 0x44), (2, 0x44)] []).pc = 0x20 ∧
    (ran 0x00 [0x72, 0x12, 0x20] [(1, 0x45), (2, 0x44)] []).pc = 0x03 := by decide

/-- V52; R154's example. -/
theorem test_je :
    (ran 0x00 [0x73, 0x34, 0x30] [(3, 0x01), (4, 0x02)] []).pc = 0x03 ∧
    (ran 0x00 [0x73, 0x34, 0x30] [] []).pc = 0x30 := by decide

/-- V53: 80 ≥ 7F unsigned; the other way round is false. -/
theorem test_jge :
    (ran 0x00 [0x74, 0x12, 0x40] [(1, 0x80), (2, 0x7F)] []).pc = 0x40 ∧
    (ran 0x00 [0x74, 0x12, 0x40] [(1, 0x7F), (2, 0x80)] []).pc = 0x03 := by decide

/-- V54, V55. -/
theorem test_jg :
    (ran 0x00 [0x75, 0x12, 0x40] [(1, 0xFF), (2, 0x01)] []).pc = 0x40 ∧
    (ran 0x00 [0x75, 0x11, 0x40] [(1, 0x07)] []).pc = 0x03 := by decide

/-- V56, V57. -/
theorem test_jne :
    (ran 0x10 [0x76, 0x12, 0x50] [(1, 0x01), (2, 0x02)] []).pc = 0x50 ∧
    (ran 0x10 [0x76, 0x12, 0x50] [(1, 0x01), (2, 0x01)] []).pc = 0x13 := by decide

/-- V59, V60 (both readings). -/
theorem test_skipIfNZ :
    (ran 0x20 [0x77, 0x13] [(1, 0x05)] []).pc = 0x25 ∧ (ran 0x20 [0x77, 0x13] [] []).pc = 0x22 ∧
    (ranWith otherParams 0x20 [0x77, 0x13] [] []).pc = 0x21 := by decide

/-- V61, V62, V63. -/
theorem test_skipIfZ :
    (ran 0x02 [0x78, 0x02] [] []).pc = 0x06 ∧ (ran 0xF8 [0x78, 0x0F] [] []).pc = 0x09 ∧
    (ran 0x30 [0x78, 0x05] [(0, 0x01)] []).pc = 0x32 := by decide

/-! ### The stack -/

/-- V65, V66. -/
theorem test_push_bounds :
    (ran 0x20 [0x81] [(14, 0x00)] []).status = .faulted .stackOverflow 0x20 0x81 ∧
    (ran 0x20 [0x81] [(14, 0x00)] []).sp = 0x00 ∧
    (ran 0x20 [0x81] [(14, 0x01), (1, 0x77)] []).sp = 0x00 ∧
    (ran 0x20 [0x81] [(14, 0x01), (1, 0x77)] []).load 0x00 = 0x77 := by decide

/-- V67, V68: push sp stores the old sp, push pc stores A. -/
theorem test_push_sp_pc :
    (ran 0x00 [0x8E] [(14, 0x80)] []).load 0x7F = 0x80 ∧ (ran 0x00 [0x8E] [(14, 0x80)] []).sp = 0x7F ∧
    (ran 0x33 [0x8F] [] []).load 0xFE = 0x33 ∧ (ran 0x33 [0x8F] [] []).pc = 0x34 := by decide

/-- V69, V70, V73. -/
theorem test_pop_bounds :
    (ran 0x00 [0x91] [(14, 0xFD)] [(0xFD, 0x05)]).reg 1 = 0x05 ∧
    (ran 0x00 [0x90] [] []).status = .faulted .stackUnderflow 0x00 0x90 ∧
    (ran 0x20 [0x92] [(14, 0x00)] [(0x00, 0x12)]).reg 2 = 0x12 ∧
    (ran 0x20 [0x92] [(14, 0x00)] [(0x00, 0x12)]).sp = 0x01 := by decide

/-- V71, V72. -/
theorem test_pop_sp_pc :
    (ran 0x00 [0x9E] [(14, 0x7F)] [(0x7F, 0x40)]).sp = 0x40 ∧
    (ran 0x00 [0x9F] [(14, 0xFE)] [(0xFE, 0x06)]).pc = 0x06 ∧
    (ran 0x00 [0x9F] [(14, 0xFE)] [(0xFE, 0x06)]).sp = 0xFF := by decide

/-- V78, V80. -/
theorem test_call :
    (ran 0x04 [0xC2, 0x07] [] []).load 0xFE = 0x06 ∧ (ran 0x04 [0xC2, 0x07] [] []).sp = 0xFE ∧
    (ran 0x04 [0xC2, 0x07] [] []).pc = 0x07 ∧
    (ran 0xFE [0xC2, 0x40] [] []).load 0xFE = 0x00 ∧ (ran 0xFE [0xC2, 0x40] [] []).pc = 0x40 := by decide

/-- V79, V81: AddressRange comes before StackOverflow. -/
theorem test_call_faults :
    (ran 0x20 [0xC2, 0x07] [(14, 0x00)] []).status = .faulted .stackOverflow 0x20 0xC2 ∧
    (ran 0xFF [0xC2] [(14, 0x00)] []).status = .faulted .addressRange 0xFF 0xC2 := by decide

/-- V82, V83. -/
theorem test_ret :
    (ran 0x00 [0xC3] [(14, 0xFE)] [(0xFE, 0x06)]).pc = 0x06 ∧
    (ran 0x00 [0xC3] [(14, 0xFE)] [(0xFE, 0x06)]).sp = 0xFF ∧
    (ran 0x00 [0xC3] [] []).status = .faulted .stackUnderflow 0x00 0xC3 := by decide

/-! ### The add/sub family -/

/-- V74, V75: refused, neither exited nor faulted. -/
theorem test_arith_refused :
    step { mk 0x00 [0xA0] [] [] with params := otherParams } = .refused .arithUnspecified ∧
    step { mk 0x00 [0xAC] [] [] with params := otherParams } = .refused .arithUnspecified := ⟨rfl, rfl⟩

/-- R180: the writes of `sampleEntry`, both read before any write (01 - 3 = FE, not 13 - 3). -/
theorem test_arith_writes :
    (arithNext sampleEntry [0xF3, 0, 0]
      (mk 0x00 [] [(1, 0x01), (2, 0x20)] [])).reg 1 = 0x13 ∧
    (arithNext sampleEntry [0xF3, 0, 0]
      (mk 0x00 [] [(1, 0x01), (2, 0x20)] [])).load 0x20 = 0xFE ∧
    (arithNext sampleEntry [0xF3, 0, 0]
      (mk 0x00 [] [(1, 0x01), (2, 0x20)] [])).pc = 0x02 := by decide

/-! ### No-op, I/O, diagnostics, exit, invalid opcodes -/

/-- V84, V85. -/
theorem test_nop_putchar :
    (ran 0xFF [0xD0] [] []).pc = 0x00 ∧ (ran 0x00 [0xE0] [(1, 0x41)] []).events = [.char 0x41] := by decide

/-- V91: the prompt is sent and the run waits, with nothing more to do until the host acts. -/
theorem test_getchar_waits :
    (after (step { mk 0x00 [0xE1] [] [] with promptOnInput := true })).events = [.prompt] ∧
    (ran 0x00 [0xE1] [] []).run = .awaitInput ∧ (after (step (ran 0x00 [0xE1] [] []))).run = .awaitInput := by decide

/-- V87, V88, V89, V90. -/
theorem test_getchar_completes :
    (completeGetchar 65 (mk 0x00 [] [] [])).reg 0 = 0x41 ∧ (completeGetchar 300 (mk 0x00 [] [] [])).reg 0 = 0x2C ∧
    (completeGetchar 256 (mk 0x00 [] [] [])).reg 0 = 0x00 ∧ (completeGetchar (-1) (mk 0x00 [] [] [])).reg 0 = 0xFF := by decide

/-- V92 (both readings), V93. -/
theorem test_printString :
    (ran 0x00 [0xE2, 0x48, 0x69, 0x00] [] []).events = [.char 0x48, .char 0x69] ∧
    (ran 0x00 [0xE2, 0x48, 0x69, 0x00] [] []).pc = 0x03 ∧
    (ranWith otherParams 0x00 [0xE2, 0x48, 0x69, 0x00] [] []).pc = 0x04 ∧
    (ran 0x10 [0xE2, 0x00] [] []).events = [] ∧ (ran 0x10 [0xE2, 0x00] [] []).pc = 0x11 := by decide

/-- V94, under fault and under wrap (the scan goes on at 00). -/
theorem test_printString_top :
    (ran 0xFC [0xE2, 0x41, 0x42, 0x43] [] []).events =
      [.char 0x41, .char 0x42, .char 0x43, .halt (.faulted .addressRange)] ∧
    (ran 0xFC [0xE2, 0x41, 0x42, 0x43] [] []).status = .faulted .addressRange 0xFC 0xE2 ∧
    (ranWith otherParams 0xFC [0xE2, 0x41, 0x42, 0x43] [] [(0x00, 0x44)]).events =
      [.char 0x41, .char 0x42, .char 0x43, .char 0x44] := by decide

/-- V95, V96, V98. -/
theorem test_dumpReg :
    (ran 0x00 [0xE8] [(0, 0x07)] []).events = [.dumpReg 0 0x07] ∧
    (ran 0x00 [0xE9] [(1, 0x41)] []).events = [.dumpReg 1 0x41] ∧
    (ran 0x00 [0xEC] [(1, 0x03), (3, 0x99)] []).events = [.dumpReg 3 0x99] := by decide

/-- V97: descending. -/
theorem test_dumpRange :
    (ran 0x00 [0xEB] [(1, 0x12), (2, 0x10)] [(0x12, 0xAA), (0x10, 0xBB)]).events =
      [.dumpRange 0x12 0x10 [(0x12, 0xAA), (0x11, 0x00), (0x10, 0xBB)]] := by decide

/-- V99, V101. -/
theorem test_genericDump :
    (ran 0x00 [0xED, 0x05] [(5, 0x5A)] []).events = [.dumpReg 5 0x5A] ∧ (ran 0x00 [0xED, 0x05] [(5, 0x5A)] []).pc = 0x02 ∧
    (ran 0x00 [0xED, 0x80] [] []).events = [] ∧ (ran 0x00 [0xED, 0x80] [] []).pc = 0x02 := by decide

/-- V100, V103: the events' kinds in order, and a pair of each snapshot. -/
theorem test_snapshots :
    (dumpEvents 0xFD (mk 0x00 [] [] [])).map (fun | .dumpMem c => c.getLast? | .dumpRegs r => r.getLast? | _ => none) =
      [some (0xFF, 0x00), some (15, 0x00)] ∧
    (ran 0x00 [0xEF] [] []).events.map (fun | .fileSnapshot c r => (c.head?, r.length) | _ => (none, 0)) =
      [(some (0x00, 0xEF), 16)] := by decide

/-- V102. -/
theorem test_exit :
    (ran 0x40 [0xEE] [(0, 0x2A)] []).status = .exited ∧ (ran 0x40 [0xEE] [(0, 0x2A)] []).result = some 0x2A ∧
    (ran 0x40 [0xEE] [(0, 0x2A)] []).pc = 0x40 := by decide

/-- V104, V106: InvalidOpcode, also at the top of memory. -/
theorem test_invalidOpcode :
    (ran 0x20 [0x19] [(0, 0x09)] []).status = .faulted .invalidOpcode 0x20 0x19 ∧
    (ran 0x20 [0x19] [(0, 0x09)] []).result = some 0x09 ∧
    (ran 0xFF [0x21] [] []).status = .faulted .invalidOpcode 0xFF 0x21 := by decide

/-! ### The host -/

/-- R273, with V11's sentinel: SetProgramStart(10), then Start. -/
theorem test_start :
    (after (step (after (step (hostState [.setProgramStart 0x10, .start]))))).pc = 0x10 ∧
    (after (step (after (step (hostState [.setProgramStart 0x10, .start]))))).sp = 0xFF ∧
    (after (step (after (step (hostState [.setProgramStart 0x10, .start]))))).load 0xFF = 0x10 := by decide

/-- S6: a load with the integer 300 fails; a later Start is stopped (R38). -/
theorem test_load_fails :
    loadOk 0x00 [300] = false ∧ loadOk 0xFF [1, 2] = false ∧ loadOk 0xFE [0, 255] = true ∧
    step { hostState [.start] with loadFailed := true } = .fault .startAfterFailedLoad := ⟨rfl, rfl, rfl, rfl⟩

/-- R38: no host action but Input exists in AwaitInput, and Input exists nowhere else. -/
theorem test_host_forbidden :
    step { hostState [.wipe] with run := .awaitInput } = .fault .hostActionNotAllowed ∧
    step (hostState [.input 1]) = .fault .hostActionNotAllowed := ⟨rfl, rfl⟩

/-- The trace of R80 is sent before the instruction's own events. -/
theorem test_trace :
    (after (step { mk 0x00 [0xE0] [(1, 0x41)] [] with verbose := true })).events = [.trace 0x00 0xE0, .char 0x41] := by decide

/-- The word that `withFetchWord` places is the one that the next step runs: movImmediate r1, 0x41 from reset. -/
theorem test_withFetchWord :
    (after (step (State.reset.withFetchWord 16 0x4101))).reg 1 = 0x41 ∧
    (after (step (State.reset.withFetchWord 16 0x4101))).pc = 0x02 := by decide

/-! ### Witnesses: states and operands that meet each statement's hypotheses

The statements over `CompletesOrRangeFault 1` and `2` share `test_wit_range`; those over canonical memory share `test_wit_wf`. -/

/-- PastTop and its negation at the boundary, for one and two used operand bytes, and under wrap. -/
theorem test_wit_range :
    PastTop 1 (mk 0xFF [] [] []) ∧ ¬ PastTop 1 (mk 0xFE [] [] []) ∧
    PastTop 2 (mk 0xFE [] [] []) ∧ ¬ PastTop 2 (mk 0xFD [] [] []) ∧
    ¬ PastTop 2 { mk 0xFF [] [] [] with params := otherParams } := by decide

/-- Canonical memory: StoreIndirectResult, CopyIndirectResult, LoadAfterStore (two addresses), and the store forms. -/
theorem test_wit_wf :
    (mk 0x00 [0x12, 0x21] [] [(0xFF, 1), (0x10, 0)]).mem.wf = true ∧ (0xFF : Byte) ≠ 0x00 ∧
    Memory.wf [(1, 2), (0, 3)] = false ∧ Memory.wf [(1, 0)] = false ∧ Memory.wf [(256, 1)] = false := by decide

/-- DecodeOfEncode, EncodeOfDecode: an instruction of each check, and a window that decodes. -/
theorem test_wit_encoding :
    wellFormed (.arithA5 [0xFF, 0, 1]) = true ∧ wellFormed (.movPair 15 0 0xFF) = true ∧
    decode [0x14, 0xF0, 0xFF, 0x00] = .ok (.movPair 15 0 0xFF) ∧ decode [0xAC, 1, 2, 3] = .ok (.arithAC [1, 2, 3]) := by decide

/-- InvalidBytesAreExactlyThoseListed at the ends of ranges; InvalidOpcodeFaults. -/
theorem test_wit_invalid :
    InvalidByte 0x19 ∧ ¬ InvalidByte 0x18 ∧ InvalidByte 0xC1 ∧ ¬ InvalidByte 0xC2 ∧ ¬ InvalidByte 0xEF ∧ InvalidByte 0xF0 ∧
    (mk 0xFF [0xFF] [] []).run = .running ∧ (mk 0xFF [0xFF] [] []).inString = false ∧
    InvalidByte ((mk 0xFF [0xFF] [] []).load (mk 0xFF [0xFF] [] []).pc) :=
  ⟨by decide, by decide, by decide, by decide, by decide, by decide, by decide, by decide, by decide⟩

/-- StepRunsDecodedInstruction, with the window wrapping at the top of memory. -/
theorem test_wit_step :
    (mk 0xFE [0x10, 0x23] [] []).run = .running ∧ (mk 0xFE [0x10, 0x23] [] []).inString = false ∧
    decode [(mk 0xFE [0x10, 0x23] [] []).load 0xFE, (mk 0xFE [0x10, 0x23] [] []).load 0xFF,
      (mk 0xFE [0x10, 0x23] [] []).load 0x00, (mk 0xFE [0x10, 0x23] [] []).load 0x01] = .ok (.movRegReg 2 3) ∧
    wellFormed (.movRegReg 2 3) = true := by decide

/-- UnusedOperandBytesHaveNoEffect, clause by clause (the second for every count that ARITH can give). -/
theorem test_wit_unused :
    decode [0x10, 0x23, 0x55] = .ok (.movRegReg 2 3) ∧ usedOperands (.movRegReg 2 3) = some 1 ∧
    (∀ n : Fin 4, ([1, 2, 3] : List Byte).take n.val = ([1, 2, 3, 4] : List Byte).take n.val) ∧
    ∃ t, exec .nop (mk 0x00 [] [] []) = .next t := ⟨by decide, by decide, by decide, _, rfl⟩

/-- The cases of a write to r15 (MovImmediateResult, RegWritten, MovPairResult) under both readings of P_PC_WRITE. -/
theorem test_wit_pcWrite :
    (15 : Reg) = pcReg ∧ (14 : Reg) ≠ pcReg ∧ (mk 0x00 [] [] []).params.pcWrite = .advance ∧
    { mk 0x00 [] [] [] with params := otherParams }.params.pcWrite = .bypass := by decide

/-- ShiftResult, RotateResult: both readings of P_SHR and P_ROT. -/
theorem test_wit_shift :
    (mk 0x00 [] [] []).params.shr = .referenceLeft ∧ { mk 0x00 [] [] [] with params := otherParams }.params.shr = .logicalRight ∧
    (mk 0x00 [] [] []).params.rot = .nibble ∧ { mk 0x00 [] [] [] with params := otherParams }.params.rot = .draw ∧
    (1 : Reg) ≠ 0 := by decide

/-- RorIsRolOfTheRest: amounts 1 and 7. -/
theorem test_wit_ror :
    (mk 0x00 [] [(2, 1), (3, 7)] []).params.rot = .nibble ∧ ¬ PastTop 1 (mk 0x00 [] [(2, 1), (3, 7)] []) ∧
    ((mk 0x00 [] [(2, 1), (3, 7)] []).reg 2).toNat % 8 ≠ 0 ∧
    ((mk 0x00 [] [(2, 1), (3, 7)] []).reg 3).toNat % 8 = 8 - ((mk 0x00 [] [(2, 1), (3, 7)] []).reg 2).toNat % 8 ∧
    (∃ t, exec (.ror 1 2) (mk 0x00 [] [(2, 1), (3, 7)] []) = .next t) ∧
    ∃ u, exec (.rol 1 3) (mk 0x00 [] [(2, 1), (3, 7)] []) = .next u :=
  ⟨by decide, by decide, by decide, by decide, ⟨_, rfl⟩, _, rfl⟩

/-- CondJumpResult, SkipResult: each relation true and false at x[1] = 0x7F, x[2] = 0x80, x[3] = 0; both readings of
P_NOT_TAKEN. -/
theorem test_wit_cond :
    ((mk 0 [] [(1, 0x7F), (2, 0x80)] []).reg 1).toNat < ((mk 0 [] [(1, 0x7F), (2, 0x80)] []).reg 2).toNat ∧
    ¬ ((mk 0 [] [(1, 0x7F), (2, 0x80)] []).reg 2).toNat ≤ ((mk 0 [] [(1, 0x7F), (2, 0x80)] []).reg 1).toNat ∧
    ((mk 0 [] [(1, 0x7F), (2, 0x80)] []).reg 1).toNat ≠ 0 ∧ ((mk 0 [] [(1, 0x7F), (2, 0x80)] []).reg 3).toNat = 0 ∧
    (mk 0 [] [] []).params.notTaken = .length ∧
    { mk 0 [] [] [] with params := otherParams }.params.notTaken = .literal := by decide

/-- PushResult, PopResult, CallResult, RetResult, CallThenRet: sp at and next to the two boundary values. -/
theorem test_wit_stack :
    (mk 0 [] [(14, 0x00)] []).sp = 0x00 ∧ (mk 0 [] [(14, 0x01)] []).sp ≠ 0x00 ∧ (mk 0 [] [] []).sp = 0xFF ∧
    (mk 0 [] [(14, 0xFE)] []).sp ≠ 0xFF ∧ (mk 0 [] [(14, 0x01)] []).mem.wf = true ∧
    PastTop 1 (mk 0xFF [] [(14, 0x00)] []) ∧ ¬ PastTop 1 (mk 0xFE [] [(14, 0x00)] []) := by decide

/-- PushesUntilFull: sp = 0xFF, a count, and the state after two pushes. -/
theorem test_wit_pushes :
    (mk 0 [] [] []).sp = 0xFF ∧ 255 ≤ 255 ∧ ∃ t, execTimes (.push 0) 2 (mk 0 [] [] []) = some t ∧ t.sp = 0xFD :=
  ⟨by decide, by decide, _, rfl, by decide⟩

/-- ArithRefusalAndRangeFault, ArithResult: ARITH absent, and present, whatever count its entry gives. -/
theorem test_wit_arith :
    { mk 0xFF [] [] [] with params := otherParams }.params.arithGiven = false ∧ (mk 0xFF [] [] []).params.arithGiven = true ∧
    (∀ n : Fin 4, n ≠ 0 → PastTop n.val (mk 0xFF [] [] [])) ∧ (∀ n : Fin 4, ¬ PastTop n.val (mk 0x00 [] [] [])) ∧
    wellFormed (arithInstr .a0 [1, 2, 3]) = true ∧ (mk 0x00 [] [] []).mem.wf = true := by decide

/-- ArithValuesAreSumsOrDifferences: a sum and a difference. -/
theorem test_wit_arithValues :
    ([0xF3, 0, 0] : List Byte).length = 3 ∧
    (.reg 1, 0x13) ∈ arithWrites sampleEntry [0xF3, 0, 0] (mk 0x00 [] [(1, 0x01), (2, 0x20)] []) ∧
    (.mem 0x20, 0xFE) ∈ arithWrites sampleEntry [0xF3, 0, 0] (mk 0x00 [] [(1, 0x01), (2, 0x20)] []) := by decide

/-- GetcharWaitsAndCompletes: a wait with and without an input. -/
theorem test_wit_getchar :
    { hostState [.input (-1)] with run := .awaitInput }.run = .awaitInput ∧
    { hostState [.input (-1)] with run := .awaitInput }.host = [.input (-1)] ∧
    { hostState [] with run := .awaitInput }.host = [] := by decide

set_option maxRecDepth 20000 in
/-- PrintStringResult: the empty string, a string whose zero byte stands at 0xFF, and 255 characters under wrap. -/
theorem test_wit_printString :
    (mk 0xFD [0xE2, 0x41, 0x00] [] []).pc.toNat + 1 + 1 ≤ 0xFF ∧
    (∀ j, j < 1 → (mk 0xFD [0xE2, 0x41, 0x00] [] []).load (0xFD + 1 + BitVec.ofNat 8 j) ≠ 0) ∧
    (mk 0xFD [0xE2, 0x41, 0x00] [] []).load (0xFD + 1 + BitVec.ofNat 8 1) = 0 ∧
    (mk 0x10 [0xE2, 0x00] [] []).load (0x10 + 1 + BitVec.ofNat 8 0) = 0 ∧
    { mk 0x00 [] [] [] with params := otherParams }.params.addrOverflow = .wrap ∧
    (∀ j, j < 255 → { mk 0x00 [] [] [] with mem := memWrite fullMem 0x00 0x00 }.load (0x00 + 1 + BitVec.ofNat 8 j) ≠ 0) ∧
    { mk 0x00 [] [] [] with mem := memWrite fullMem 0x00 0x00 }.load (0x00 + 1 + BitVec.ofNat 8 255) = 0 ∧
    (mk 0x00 [] [] []).params.putsEnd = .atZero ∧
    { mk 0x00 [] [] [] with params := otherParams }.params.putsEnd = .afterZero := by decide

/-- PrintStringPastTopFaults: at 0xFF (no character at all) and over a full memory. -/
theorem test_wit_printString_past :
    (mk 0xFF [0xE2] [] []).params.addrOverflow = .fault ∧ ¬ ∃ j, (mk 0xFF [0xE2] [] []).pc.toNat + 1 + j ≤ 0xFF := by
  refine ⟨by decide, fun ⟨j, h⟩ => ?_⟩
  have : (mk 0xFF [0xE2] [] []).pc.toNat = 255 := by decide
  omega

set_option maxRecDepth 20000 in
/-- PrintStringNeverEnds. -/
theorem test_wit_endless :
    { mk 0x00 [] [] [] with params := otherParams, mem := fullMem }.params.addrOverflow = .wrap ∧
    (∀ a : Byte, { mk 0x00 [] [] [] with params := otherParams, mem := fullMem }.load a ≠ 0) ∧
    { mk 0x00 [] [] [] with params := otherParams, mem := fullMem, inString := true }.run = .running := by decide

/-- SnapshotResult, DumpRegR1Result, GenericDumpResult: both orders of a range, an index in and out of range, the ends of
the dispatch table's rows. -/
theorem test_wit_dump :
    ((0x10 : Byte).toNat ≤ (0x10 : Byte).toNat) ∧ ((0x10 : Byte).toNat < (0x11 : Byte).toNat) ∧
    ((0x0F : Byte).toNat < 16) ∧ ¬ ((0x10 : Byte).toNat < 16) ∧ 0x10 ≤ (0xFC : Byte).toNat ∧ (0xFC : Byte).toNat ≤ 0xFC ∧
    ¬ (0xFD : Byte).toNat ≤ 0xFC := by decide

/-- FaultsArePrecise and FaultsHaveTheirCause: a step into each of the four faults, from a state that meets Inv. -/
theorem test_wit_faults :
    (∃ t, step (mk 0x20 [0x19] [] []) = .next t ∧ t.run = .faulted ∧ t.faultReason = .invalidOpcode) ∧
    (∃ t, step (mk 0x20 [0x80] [(14, 0)] []) = .next t ∧ t.run = .faulted ∧ t.faultReason = .stackOverflow) ∧
    (∃ t, step (mk 0x20 [0xC3] [] []) = .next t ∧ t.run = .faulted ∧ t.faultReason = .stackUnderflow) ∧
    (∃ t, step (mk 0xFF [0x70] [] []) = .next t ∧ t.run = .faulted ∧ t.faultReason = .addressRange) :=
  ⟨⟨_, rfl, rfl, rfl⟩, ⟨_, rfl, rfl, rfl⟩, ⟨_, rfl, rfl, rfl⟩, ⟨_, rfl, rfl, rfl⟩⟩

set_option maxRecDepth 20000 in
/-- The invariant at a running state, and at one inside an endless string (StepKeepsInvariant, FaultsHaveTheirCause). -/
theorem test_wit_inv :
    Inv (mk 0x20 [0x19] [] []) ∧
    Inv { mk 0x00 [] [] [] with params := otherParams, mem := fullMem, inString := true } := by
  refine ⟨⟨by decide, fun h => absurd h (by decide)⟩, by decide, fun _ => ⟨by decide, by decide, by decide⟩⟩

/-- RunStateTransitions, InstructionsLeaveControlState, EventsAreAppended, ParametersNeverChange, StepKeepsInvariant: steps in
each kind of run state. -/
theorem test_wit_steps :
    (mk 0x00 [0xD0] [] []).run = .running ∧ (∃ t, step (mk 0x00 [0xD0] [] []) = .next t) ∧
    (∃ t, step { hostState [.input 7] with run := .awaitInput } = .next t) ∧
    HostMayAct (hostState [.start]) ∧ (∃ t, step (hostState [.start]) = .next t) ∧
    HostMayAct (hostState []) ∧ (hostState []).host = [] :=
  ⟨by decide, ⟨_, rfl⟩, ⟨_, rfl⟩, by decide, ⟨_, rfl⟩, by decide, by decide⟩

/-- OnlyStoringInstructionsWriteMemory: a step that changes the byte at x[2]. -/
theorem test_wit_store :
    (mk 0x00 [0x12, 0x21] [(2, 0x08), (1, 0xEE)] []).mem.wf = true ∧
    (mk 0x00 [0x12, 0x21] [(2, 0x08), (1, 0xEE)] []).run = .running ∧
    (∃ t, step (mk 0x00 [0x12, 0x21] [(2, 0x08), (1, 0xEE)] []) = .next t ∧
      t.load 0x08 ≠ (mk 0x00 [0x12, 0x21] [(2, 0x08), (1, 0xEE)] []).load 0x08) :=
  ⟨by decide, by decide, _, rfl, by decide⟩

/-- DiagnosticsAlterNothing: a state with and without the flag and a trace event. -/
theorem test_wit_diag :
    DiagEquiv (mk 0x00 [0xEC] [] []) { mk 0x00 [0xEC] [] [] with verbose := true, events := [.trace 0x00 0xD0] } :=
  ⟨rfl, rfl⟩

/-- StartResult, WipeResult, HostWritesResult, SentinelCannotBePopped. -/
theorem test_wit_host :
    HostMayAct (hostState [.start]) ∧ (hostState [.start]).host = [.start] ∧ (hostState [.start]).loadFailed = false ∧
    (hostState [.start]).mem.wf = true ∧ (∃ t, step (hostState [.start]) = .next t) ∧
    (hostState [.wipe]).host = [.wipe] ∧ { hostState [.wipe] with run := .awaitInput }.run = .awaitInput ∧
    HostMayAct { hostState [.setProgramStart 0xFF] with run := .exited } ∧
    HostMayAct { hostState [.setFlags true false] with run := .faulted } ∧
    (hostState [.loadWrite 0xFF 0x01]).host = [.loadWrite 0xFF 0x01] :=
  ⟨by decide, by decide, by decide, by decide, ⟨_, rfl⟩, by decide, by decide, by decide, by decide, by decide⟩

/-- LoadResult: integers 0 and 255 up to the top of memory; one byte too many; integers 256 and -1. -/
theorem test_wit_load :
    HostMayAct (hostState [.load [0, 255]]) ∧ (hostState [.load [0, 255]]).host = [.load [0, 255]] ∧
    (∀ x ∈ ([0, 255] : List Int), 0 ≤ x ∧ x < 256) ∧
    { hostState [.load [0, 255]] with programStart := 0xFE }.programStart.toNat + ([0, 255] : List Int).length ≤ 256 ∧
    256 < { hostState [.load [0, 255]] with programStart := 0xFF }.programStart.toNat + ([0, 255] : List Int).length ∧
    (¬ ∀ x ∈ ([256] : List Int), 0 ≤ x ∧ x < 256) ∧ (¬ ∀ x ∈ ([-1] : List Int), 0 ≤ x ∧ x < 256) := by decide

end Sys2Proof.Tests
end

section
/-! SUPPORT. The host's steps and the wait of getchar (10_state.md R36, R38), and the statements about them. -/

namespace Sys2Proof.Machine

/-! ### The step that takes the host's next action -/

/-- While the host may act, a step takes its first pending action. -/
theorem step_hostAct {s : State} {a : HostAction} {rest : List HostAction} (hm : HostMayAct s)
    (hh : s.host = a :: rest) : step s = hostAct a { s with host := rest } := by
  rw [step_host hm, hostStep, hh]

/-- In AwaitInput a pending integer completes the getchar. -/
theorem step_input {s : State} {n : Int} {rest : List HostAction} (hr : s.run = .awaitInput)
    (hh : s.host = .input n :: rest) : step s = .next (completeGetchar n { s with host := rest }) := by
  rw [step_awaitInput hr, awaitStep, hh]

/-- In AwaitInput with nothing pending the run is held. -/
theorem step_awaitInput_nil {s : State} (hr : s.run = .awaitInput) (hh : s.host = []) : step s = .next s := by
  rw [step_awaitInput hr, awaitStep, hh]

/-! ### getchar (46_system_io.md R212) -/

theorem completeGetchar_result (n : Int) (s : State) :
    RegResult 0 (BitVec.ofInt 8 n) 1 { s with run := .running } (completeGetchar n s) :=
  regResult_writeAdvance _ _ _ _

theorem completeGetchar_run (n : Int) (s : State) : (completeGetchar n s).run = .running := by
  rw [completeGetchar, writeAdvance_eq]

/-- The byte of an integer is the integer mod 256. -/
theorem toNat_ofInt_byte (n : Int) : ((BitVec.ofInt 8 n).toNat : Int) = n % 256 := by
  rw [BitVec.toNat_ofInt]
  omega

/-- Settles O33: the wait is read off the meaning, the completion is a sequential instruction that writes x[0]. -/
theorem getcharWaitsAndCompletes : Obligations.GetcharWaitsAndCompletes := by
  refine ⟨decode_getchar, fun s => ⟨_, rfl, rfl, ?_, fun _ _ => rfl, fun _ => rfl, rfl⟩, fun s n rest hr hh => ?_,
    fun s => step_awaitInput_nil⟩
  · cases s.promptOnInput <;> simp
  · obtain ⟨⟨hne, -, -, hregs⟩, hmem, hev, hrest⟩ := completeGetchar_result n { s with host := rest }
    obtain ⟨hval, hpc⟩ := hne (by decide)
    exact ⟨_, step_input hr hh, completeGetchar_run _ _, by rw [hval, toNat_ofInt_byte], hpc, hregs, hmem, hev, hrest⟩

/-! ### Loads (R38, 70_reset_and_hazards.md R275) -/

/-- What a cell holds after a load that fits: the integer of its place, or what it held. -/
theorem load_loadTokens {s : State} (hw : s.mem.wf = true) {tokens : List Int}
    (hp : s.programStart.toNat + tokens.length ≤ 256) (a : Byte) :
    (loadTokens tokens s).load a =
      if s.programStart.toNat ≤ a.toNat then
        (tokens[a.toNat - s.programStart.toNat]?.map (BitVec.ofInt 8)).getD (s.load a)
      else s.load a := by
  have h := load_storeBytes (tokens.map (BitVec.ofInt 8)) (p := s.programStart.toNat)
    (s := { s with loadFailed := false }) hw (by simpa using hp) a
  rw [BitVec.ofNat_toNat, BitVec.setWidth_eq, List.getElem?_map] at h
  exact h

/-- The integer at place `k` reaches the cell at programStart + k. -/
theorem load_loadTokens_at {s : State} (hw : s.mem.wf = true) {tokens : List Int}
    (hp : s.programStart.toNat + tokens.length ≤ 256) {k : Nat} {x : Int} (hk : tokens[k]? = some x) :
    (loadTokens tokens s).load (s.programStart + BitVec.ofNat 8 k) = BitVec.ofInt 8 x := by
  obtain ⟨hlt, -⟩ := List.getElem?_eq_some_iff.1 hk
  have ha : (s.programStart + BitVec.ofNat 8 k).toNat = s.programStart.toNat + k := by
    rw [BitVec.toNat_add, BitVec.toNat_ofNat]
    omega
  rw [load_loadTokens hw hp, ha, if_pos (Nat.le_add_right _ _), Nat.add_sub_cancel_left, hk]
  rfl

/-- A load that fits leaves the cells below and above its range. -/
theorem load_loadTokens_outside {s : State} (hw : s.mem.wf = true) {tokens : List Int}
    (hp : s.programStart.toNat + tokens.length ≤ 256) {a : Byte}
    (ha : a.toNat < s.programStart.toNat ∨ s.programStart.toNat + tokens.length ≤ a.toNat) :
    (loadTokens tokens s).load a = s.load a := by
  rw [load_loadTokens hw hp]
  split
  · rw [List.getElem?_eq_none (by omega)]
    rfl
  · rfl

/-- A load changes no register, no event and no field outside memory and the load state. -/
theorem loadTokens_frame (tokens : List Int) (s : State) :
    RegsSame [] s (loadTokens tokens s) ∧ (loadTokens tokens s).events = s.events ∧
    RestSame { s with loadFailed := false } (loadTokens tokens s) := by
  rw [loadTokens_eq]
  exact ⟨fun _ _ => rfl, rfl, rfl⟩

/-- A step that takes a load within the loader contract. -/
theorem step_load_ok {s : State} {tokens : List Int} {rest : List HostAction} (hm : HostMayAct s)
    (hh : s.host = .load tokens :: rest) (hok : loadOk s.programStart tokens = true) :
    step s = .next (loadTokens tokens { s with host := rest }) := by
  rw [step_hostAct hm hh, hostAct, if_pos hok]

/-- A step that takes a load outside the loader contract. -/
theorem step_load_fails {s : State} {tokens : List Int} {rest : List HostAction} (hm : HostMayAct s)
    (hh : s.host = .load tokens :: rest) (hok : ¬ loadOk s.programStart tokens = true) :
    step s = .next (loadFails { s with host := rest }) := by
  rw [step_hostAct hm hh, hostAct, if_neg hok]

/-- No run may start after a failed load. -/
theorem step_start_of_loadFailed {s : State} {rest : List HostAction} (hm : HostMayAct s)
    (hh : s.host = .start :: rest) (hf : s.loadFailed = true) : step s = .fault .startAfterFailedLoad := by
  rw [step_hostAct hm hh, hostAct, if_pos hf]

/-- Settles O57: the two cases are the two values of `loadOk`. -/
theorem loadResult : Obligations.LoadResult := by
  refine fun s tokens rest hw hm hh => ⟨fun hx hp => ?_, fun hbad => ?_⟩
  · have hok := (loadOk_iff s.programStart tokens).2 ⟨hx, hp⟩
    refine ⟨_, step_load_ok hm hh hok, fun k x hk => ?_, fun a ha => ?_, loadTokens_frame tokens { s with host := rest }⟩
    · have hrange := hx x (List.mem_of_getElem? hk)
      have hcell := load_loadTokens_at (s := { s with host := rest }) hw hp hk
      rw [hcell, toNat_ofInt_byte, Int.emod_eq_of_lt hrange.1 hrange.2]
    · exact load_loadTokens_outside (s := { s with host := rest }) hw hp ha
  · have hok : ¬ loadOk s.programStart tokens = true := by
      rw [loadOk_iff]
      rintro ⟨hx, hp⟩
      exact hbad.elim (fun h => h hx) (fun h => by omega)
    exact ⟨_, step_load_fails hm hh hok, rfl, rfl, rfl, fun _ _ => rfl,
      fun more => step_start_of_loadFailed (rest := more) hm rfl rfl⟩

/-- Settles O56: each action is the step's only effect; the cell read back is `load_store`. -/
theorem hostWritesResult : Obligations.HostWritesResult := by
  refine fun s rest hw hm => ⟨fun v hh => step_hostAct hm hh, fun b p hh => step_hostAct hm hh, fun a v hh => ?_⟩
  have hw' : { s with host := rest }.mem.wf = true := hw
  exact ⟨_, step_hostAct hm hh, (load_store hw' a v a).trans (if_pos rfl), memSameExcept_store hw' a v,
    fun _ _ => rfl, rfl, rfl⟩

end Sys2Proof.Machine
end

section
/-! SUPPORT. No instruction writes the control state (10_state.md R33). -/

namespace Sys2Proof.Machine

/-- `t` has the flags, programStart, parameters, pending actions and load state of `s`, and its fault fields too unless it
has faulted (R33). -/
def ControlKept (s t : State) : Prop :=
  t.verbose = s.verbose ∧ t.promptOnInput = s.promptOnInput ∧ t.programStart = s.programStart ∧
  t.params = s.params ∧ t.host = s.host ∧ t.loadFailed = s.loadFailed ∧
  (t.run ≠ .faulted → t.faultReason = s.faultReason ∧ t.faultPc = s.faultPc ∧ t.faultOpcode = s.faultOpcode)

theorem controlKept_raiseFault (q : FaultReason) (s : State) : ControlKept s (raiseFault q s) :=
  ⟨rfl, rfl, rfl, rfl, rfl, rfl, fun hrun => absurd rfl hrun⟩

/-- A change to the registers, memory, run state, events or the model's marks alone. -/
theorem controlKept_with (s : State) (regs : Vector Byte 16) (mem : Memory) (run : RunState) (events : List Event)
    (inString : Bool) (draws : Nat) :
    ControlKept s { s with regs := regs, mem := mem, run := run, events := events, inString := inString, draws := draws } :=
  ⟨rfl, rfl, rfl, rfl, rfl, rfl, fun _ => ⟨rfl, rfl, rfl⟩⟩

theorem controlKept_effects {s t : State} (h : Effects s t) : ControlKept s t := by
  obtain ⟨heq, -⟩ := h
  rw [heq]
  exact controlKept_with ..

/-- None of the things that an instruction can do touches the control state. -/
theorem controlKept_outcomes {i : Instr} {s t : State} (h : Outcomes i s t) : ControlKept s t := by
  cases h with
  | fault q es hc h => rw [h]; exact controlKept_raiseFault q (emitAll es s)
  | wait hi h he => rw [h]; exact controlKept_with ..
  | exit hi h => rw [h]; exact controlKept_with ..
  | endless hi he h => rw [h]; exact controlKept_with ..
  | effects h => exact controlKept_effects h

/-- Settles O45: the three kinds of step of a running machine, each by what it can do; the fetch before an instruction
touches the events and the latch only. -/
theorem instructionsLeaveControlState : Obligations.InstructionsLeaveControlState := by
  intro s t hr ht
  change ControlKept s t
  rcases running_step_cases hr with ⟨-, e⟩ | ⟨-, i, -, e⟩ | ⟨-, -, -, e⟩ <;> rw [e] at ht
  · cases ht
    have hlap := controlKept_outcomes (outcomes_printStringNext { s with inString := false })
    exact hlap
  · have hexec : ControlKept (latchOperands (traceFetch s)) t := controlKept_outcomes (exec_outcomes ht)
    exact hexec
  · cases ht
    have hfault := controlKept_raiseFault .invalidOpcode (traceFetch s)
    exact hfault

end Sys2Proof.Machine
end

section
/-! SUPPORT. Every step takes states that differ in diagnostic events and `verbose` only to outcomes that differ so
(10_state.md R37, 46_system_io.md R223). -/

namespace Sys2Proof.Machine

variable {s t : State}

/-! ### What such states have in common -/

theorem diagEquiv_run (h : DiagEquiv s t) : t.run = s.run := by
  obtain ⟨b, es, rfl, -⟩ := (diagEquiv_iff _ _).1 h; rfl

theorem diagEquiv_inString (h : DiagEquiv s t) : t.inString = s.inString := by
  obtain ⟨b, es, rfl, -⟩ := (diagEquiv_iff _ _).1 h; rfl

theorem diagEquiv_host (h : DiagEquiv s t) : t.host = s.host := by
  obtain ⟨b, es, rfl, -⟩ := (diagEquiv_iff _ _).1 h; rfl

theorem diagEquiv_programStart (h : DiagEquiv s t) : t.programStart = s.programStart := by
  obtain ⟨b, es, rfl, -⟩ := (diagEquiv_iff _ _).1 h; rfl

theorem diagEquiv_loadFailed (h : DiagEquiv s t) : t.loadFailed = s.loadFailed := by
  obtain ⟨b, es, rfl, -⟩ := (diagEquiv_iff _ _).1 h; rfl

/-! ### A field set alike in both -/

theorem diagEquiv_withRun (h : DiagEquiv s t) (r : RunState) : DiagEquiv { s with run := r } { t with run := r } := by
  obtain ⟨b, es, rfl, hes⟩ := (diagEquiv_iff _ _).1 h; exact ⟨rfl, hes⟩

theorem diagEquiv_withHost (h : DiagEquiv s t) (l : List HostAction) :
    DiagEquiv { s with host := l } { t with host := l } := by
  obtain ⟨b, es, rfl, hes⟩ := (diagEquiv_iff _ _).1 h; exact ⟨rfl, hes⟩

theorem diagEquiv_withProgramStart (h : DiagEquiv s t) (v : Byte) :
    DiagEquiv { s with programStart := v } { t with programStart := v } := by
  obtain ⟨b, es, rfl, hes⟩ := (diagEquiv_iff _ _).1 h; exact ⟨rfl, hes⟩

theorem diagEquiv_withFlags (h : DiagEquiv s t) (v p : Bool) :
    DiagEquiv { s with verbose := v, promptOnInput := p } { t with verbose := v, promptOnInput := p } := by
  obtain ⟨b, es, rfl, hes⟩ := (diagEquiv_iff _ _).1 h; exact ⟨rfl, hes⟩

theorem diagEquiv_withLoadFailed (h : DiagEquiv s t) (f : Bool) :
    DiagEquiv { s with loadFailed := f } { t with loadFailed := f } := by
  obtain ⟨b, es, rfl, hes⟩ := (diagEquiv_iff _ _).1 h; exact ⟨rfl, hes⟩

theorem diagEquiv_withInString (h : DiagEquiv s t) (f : Bool) :
    DiagEquiv { s with inString := f } { t with inString := f } := by
  obtain ⟨b, es, rfl, hes⟩ := (diagEquiv_iff _ _).1 h; exact ⟨rfl, hes⟩

theorem diagEquiv_withDraws (h : DiagEquiv s t) (n : Nat) : DiagEquiv { s with draws := n } { t with draws := n } := by
  obtain ⟨b, es, rfl, hes⟩ := (diagEquiv_iff _ _).1 h; exact ⟨rfl, hes⟩

/-! ### The shapes of the instructions -/

theorem diagEquiv_writeNext (h : DiagEquiv s t) (a : Reg) (v : Byte) :
    DiagEquiv (writeNext a v s) (writeNext a v t) :=
  diagEquiv_withOperands h (diagEquiv_writeAdvance h _ _ _) _

theorem diagEquiv_rrNext (h : DiagEquiv s t) (f : Byte → Byte → Byte) (a b : Reg) :
    DiagEquiv (rrNext f a b s) (rrNext f a b t) := by
  unfold rrNext
  rw [diagEquiv_reg h, diagEquiv_reg h]
  exact diagEquiv_withOperands h (diagEquiv_writeAdvance h _ _ _) _

/-- The free byte of a rotate is that of the same draw. -/
theorem diagEquiv_rotateNext (h : DiagEquiv s t) (f : Byte → Byte → Byte) (a b : Reg) :
    DiagEquiv (rotateNext f a b s) (rotateNext f a b t) := by
  unfold rotateNext
  have hrot : t.params.rot = s.params.rot := congrArg Params.rot (diagEquiv_params h)
  rw [hrot, diagEquiv_draws h, diagEquiv_reg h, diagEquiv_reg h]
  refine diagEquiv_withOperands h ?_ _
  split
  · exact diagEquiv_writeAdvance (diagEquiv_withDraws h _) _ _ _
  · exact diagEquiv_writeAdvance h _ _ _

theorem diagEquiv_notTakenPc (h : DiagEquiv s t) (len : Byte) : notTakenPc len t = notTakenPc len s := by
  rw [notTakenPc, diagEquiv_params h, diagEquiv_pc h]; rfl

theorem diagEquiv_condJumpNext (h : DiagEquiv s t) (c : Byte → Byte → Bool) (a b : Reg) (target : Byte) :
    DiagEquiv (condJumpNext c a b target s) (condJumpNext c a b target t) := by
  unfold condJumpNext
  rw [diagEquiv_reg h, diagEquiv_reg h, diagEquiv_notTakenPc h]
  exact diagEquiv_withOperands h (diagEquiv_setPc h _) _

theorem diagEquiv_skipNext (h : DiagEquiv s t) (c : Byte → Bool) (a : Reg) (n : Nibble) :
    DiagEquiv (skipNext c a n s) (skipNext c a n t) := by
  unfold skipNext
  rw [diagEquiv_reg h, diagEquiv_pc h, diagEquiv_notTakenPc h]
  exact diagEquiv_withOperands h (diagEquiv_setPc h _) _

/-- An instruction that only sends events, the diagnostic ones of which may differ. -/
theorem diagEquiv_sendNext (h : DiagEquiv s t) {es es' : List Event}
    (he : es.filter isCharEvent = es'.filter isCharEvent) : DiagEquiv (sendNext es s) (sendNext es' t) :=
  diagEquiv_advance (diagEquiv_emitAll h he) _ _

/-- The writes of an ARITH entry read registers and memory only. -/
theorem diagEquiv_arithWrites (h : DiagEquiv s t) (e : ArithEntry) (ops : List Byte) :
    arithWrites e ops t = arithWrites e ops s := by
  obtain ⟨b, es, rfl, -⟩ := (diagEquiv_iff _ _).1 h; rfl

theorem diagEquivOutcome_arith (h : DiagEquiv s t) (op : ArithOp) (ops : List Byte) :
    DiagEquivOutcome (arith op ops s) (arith op ops t) := by
  unfold arith arithNext
  rw [diagEquiv_params h, diagEquiv_arithWrites h]
  split
  · exact diagEquiv_withOperands h (diagEquiv_advance (diagEquiv_arithApplyAll h _) _ _) _
  · rfl

/-- A dump sends no character. -/
theorem filter_dumpEvents (id : Byte) (s : State) : (dumpEvents id s).filter isCharEvent = [] := by
  unfold dumpEvents
  repeat' split
  all_goals rfl

/-! ### The instructions -/

/-- Executing an instruction: an event it sends on the diagnostic channel reaches nothing else. With `t` written as `s` with
other events and another flag, the operands that both read are the same by definition. -/
theorem diagEquivOutcome_exec (h : DiagEquiv s t) (i : Instr) : DiagEquivOutcome (exec i s) (exec i t) := by
  have heq := (diagEquiv_iff s t).1 h
  obtain ⟨b, es, rfl, hes⟩ := heq
  cases i
  case movImmediate d imm =>
    refine diagEquiv_withOperands h ?_ _
    split
    · exact diagEquiv_setPc h _
    · exact diagEquiv_writeAdvance h _ _ _
  case movRegReg a b => exact diagEquiv_writeNext h _ _
  case loadIndirect a b => exact diagEquiv_writeNext h _ _
  case storeIndirect a b => exact diagEquiv_withOperands h (diagEquiv_advance (diagEquiv_store h _ _) _ _) _
  case copyIndirect a b => exact diagEquiv_withOperands h (diagEquiv_advance (diagEquiv_store h _ _) _ _) _
  case movPair a b imm =>
    exact diagEquiv_withOperands h (diagEquiv_advance (diagEquiv_setReg (diagEquiv_setReg h _ _) _ _) _ _) _
  case incImm a n => exact diagEquiv_writeNext h _ _
  case decImm a n => exact diagEquiv_writeNext h _ _
  case pcOffsetPlus a n => exact diagEquiv_writeNext h _ _
  case pcOffsetMinus a n => exact diagEquiv_writeNext h _ _
  case and a b => exact diagEquiv_rrNext h _ _ _
  case or a b => exact diagEquiv_rrNext h _ _ _
  case xor a b => exact diagEquiv_rrNext h _ _ _
  case shl a b => exact diagEquiv_rrNext h _ _ _
  case shr a b => exact diagEquiv_rrNext h _ _ _
  case rol a b => exact diagEquiv_rotateNext h _ _ _
  case ror a b => exact diagEquiv_rotateNext h _ _ _
  case jmp x => exact diagEquiv_withOperands h (diagEquiv_setPc h _) _
  case jl a b x => exact diagEquiv_condJumpNext h _ _ _ _
  case jle a b x => exact diagEquiv_condJumpNext h _ _ _ _
  case je a b x => exact diagEquiv_condJumpNext h _ _ _ _
  case jge a b x => exact diagEquiv_condJumpNext h _ _ _ _
  case jg a b x => exact diagEquiv_condJumpNext h _ _ _ _
  case jne a b x => exact diagEquiv_condJumpNext h _ _ _ _
  case skipIfNZ a n => exact diagEquiv_skipNext h _ _ _
  case skipIfZ a n => exact diagEquiv_skipNext h _ _ _
  case push d => exact diagEquiv_withPush h (diagEquiv_advance (diagEquiv_pushByte h _) _ _)
  case pop d =>
    refine diagEquiv_withPop h ?_
    split
    · exact diagEquiv_setPc (diagEquiv_popSp h) _
    · exact diagEquiv_writeAdvance (diagEquiv_popSp h) _ _ _
  case call x =>
    exact diagEquiv_withOperands h (diagEquiv_withPush h (diagEquiv_setPc (diagEquiv_pushByte h _) _)) _
  case ret => exact diagEquiv_withPop h (diagEquiv_setPc (diagEquiv_popSp h) _)
  case nop => exact diagEquiv_advance h _ _
  case putchar => exact diagEquiv_sendNext h rfl
  case getchar =>
    refine ⟨rfl, ?_⟩
    cases s.promptOnInput <;> simp [hes]
  case printString => exact diagEquiv_printStringNext h
  case dumpReg0 => exact diagEquiv_sendNext h rfl
  case dumpReg1 => exact diagEquiv_sendNext h rfl
  case dumpMem => exact diagEquiv_sendNext h rfl
  case dumpRange => exact diagEquiv_sendNext h rfl
  case dumpRegR1 => exact diagEquiv_sendNext h rfl
  case genericDump id =>
    have he := (filter_dumpEvents id s).trans (filter_dumpEvents id { s with verbose := b, events := es }).symm
    exact diagEquiv_withOperands h (diagEquiv_advance (diagEquiv_emitAll h he) _ _) _
  case exit => exact ⟨rfl, by simp [hes]⟩
  case fileDump => exact diagEquiv_sendNext h rfl
  all_goals exact diagEquivOutcome_arith h _ _

/-! ### The sequencer (30_encoding.md R80) -/

/-- The trace event is on the diagnostic channel. -/
theorem filter_traceFetch (s : State) :
    (traceFetch s).events.filter isCharEvent = s.events.filter isCharEvent := by
  rw [traceFetch_events]
  cases s.verbose <;> simp [isCharEvent]

theorem diagEquiv_traceFetch (h : DiagEquiv s t) : DiagEquiv (traceFetch s) (traceFetch t) := by
  obtain ⟨b, es, rfl, hes⟩ := (diagEquiv_iff _ _).1 h
  refine ⟨rfl, ?_⟩
  rw [filter_traceFetch, filter_traceFetch]
  exact hes

theorem diagEquiv_latchOperands (h : DiagEquiv s t) : DiagEquiv (latchOperands s) (latchOperands t) := by
  obtain ⟨b, es, rfl, hes⟩ := (diagEquiv_iff _ _).1 h
  exact ⟨rfl, hes⟩

theorem diagEquivOutcome_runStep (h : DiagEquiv s t) : DiagEquivOutcome (runStep s) (runStep t) := by
  have hf := diagEquiv_traceFetch h
  have hwin : fetchWindow (latchOperands (traceFetch t)) = fetchWindow (latchOperands (traceFetch s)) := by
    simp only [fetchWindow_fetched, diagEquiv_pc h, diagEquiv_load h]
  unfold runStep
  rw [hwin]
  cases decode (fetchWindow (latchOperands (traceFetch s))) with
  | ok i => exact diagEquivOutcome_exec (diagEquiv_latchOperands hf) i
  | error e => exact diagEquiv_raiseFault hf _

/-! ### The host's actions (10_state.md R36, R38) -/

/-- Storing bytes reads neither the events nor `verbose`. -/
theorem diagEquiv_storeBytes (h : DiagEquiv s t) (bytes : List Byte) (a : Byte) :
    DiagEquiv (storeBytes bytes a s) (storeBytes bytes a t) := by
  induction bytes generalizing s t a with
  | nil => exact h
  | cons b rest ih => exact ih (diagEquiv_store h _ _) _

theorem diagEquiv_loadTokens (h : DiagEquiv s t) (tokens : List Int) :
    DiagEquiv (loadTokens tokens s) (loadTokens tokens t) := by
  have hstored := diagEquiv_storeBytes (diagEquiv_withLoadFailed h false) (tokens.map (BitVec.ofInt 8)) s.programStart
  obtain ⟨b, es, rfl, -⟩ := (diagEquiv_iff _ _).1 h
  exact hstored

/-- The free values of a failed load and of a wipe are those of the same draws. -/
theorem diagEquiv_loadFails (h : DiagEquiv s t) : DiagEquiv (loadFails s) (loadFails t) := by
  obtain ⟨b, es, rfl, hes⟩ := (diagEquiv_iff _ _).1 h; exact ⟨rfl, hes⟩

theorem diagEquiv_wipe (h : DiagEquiv s t) : DiagEquiv (wipe s) (wipe t) := by
  obtain ⟨b, es, rfl, hes⟩ := (diagEquiv_iff _ _).1 h; exact ⟨rfl, hes⟩

theorem diagEquiv_start (h : DiagEquiv s t) : DiagEquiv (start s) (start t) := by
  obtain ⟨b, es, rfl, hes⟩ := (diagEquiv_iff _ _).1 h; exact ⟨rfl, hes⟩

theorem diagEquivOutcome_hostAct (h : DiagEquiv s t) (a : HostAction) :
    DiagEquivOutcome (hostAct a s) (hostAct a t) := by
  cases a with
  | setProgramStart v => exact diagEquiv_withProgramStart h v
  | setFlags verbose promptOnInput => exact diagEquiv_withFlags h verbose promptOnInput
  | loadWrite addr v => exact diagEquiv_store h _ _
  | load tokens =>
    unfold hostAct
    rw [diagEquiv_programStart h]
    dsimp only
    split
    · exact diagEquiv_loadTokens h tokens
    · exact diagEquiv_loadFails h
  | wipe => exact diagEquiv_wipe h
  | start =>
    unfold hostAct
    rw [diagEquiv_loadFailed h]
    dsimp only
    split
    · rfl
    · exact diagEquiv_start h
  | input n => rfl

theorem diagEquivOutcome_hostStep (h : DiagEquiv s t) : DiagEquivOutcome (hostStep s) (hostStep t) := by
  unfold hostStep
  rw [diagEquiv_host h]
  cases s.host with
  | nil => exact h
  | cons a rest => exact diagEquivOutcome_hostAct (diagEquiv_withHost h rest) a

theorem diagEquiv_completeGetchar (h : DiagEquiv s t) (n : Int) :
    DiagEquiv (completeGetchar n s) (completeGetchar n t) :=
  diagEquiv_writeAdvance (diagEquiv_withRun h _) _ _ _

theorem diagEquivOutcome_awaitStep (h : DiagEquiv s t) : DiagEquivOutcome (awaitStep s) (awaitStep t) := by
  unfold awaitStep
  rw [diagEquiv_host h]
  cases s.host with
  | nil => exact h
  | cons a rest =>
    cases a with
    | input n => exact diagEquiv_completeGetchar (diagEquiv_withHost h rest) n
    | setProgramStart _ | setFlags _ _ | loadWrite _ _ | load _ | wipe | start => rfl

/-! ### The step -/

/-- Settles O49: by the run state, which the two states share. -/
theorem diagnosticsAlterNothing : Obligations.DiagnosticsAlterNothing := by
  intro s t h
  have hrun := diagEquiv_run h
  cases hr : s.run with
  | running =>
    have hstr := diagEquiv_inString h
    cases hs : s.inString with
    | false =>
      rw [step_running hr hs, step_running (hrun.trans hr) (hstr.trans hs)]
      exact diagEquivOutcome_runStep h
    | true =>
      rw [step_inString hr hs, step_inString (hrun.trans hr) (hstr.trans hs)]
      exact diagEquiv_printStringNext (diagEquiv_withInString h false)
  | awaitInput =>
    rw [step_awaitInput hr, step_awaitInput (hrun.trans hr)]
    exact diagEquivOutcome_awaitStep h
  | idle | exited | faulted =>
    rw [step_host (by simp [HostMayAct, hr]), step_host (by simp [HostMayAct, hrun, hr])]
    exact diagEquivOutcome_hostStep h

end Sys2Proof.Machine
end

section
/-! SUPPORT. What decoding a byte string says about it: it begins with the encoding of the instruction (30_encoding.md R73,
R77). -/

namespace Sys2Proof

variable {op : Byte} {rest : List Byte} {i : Instr}

/-! ### The forms -/

theorem encode_prefix_of_form0 {j : Instr} (henc : encode j = [op]) (h : form0 j = .ok i) : encode i <+: op :: rest := by
  cases h
  simp [henc]

theorem encode_prefix_of_formI {f : Byte → Instr} (henc : ∀ v, encode (f v) = [op, v]) (h : formI f rest = .ok i) :
    encode i <+: op :: rest := by
  cases rest with
  | nil => cases h
  | cons n1 tl => cases h; simp [henc]

theorem encode_prefix_of_formRR {f : BitVec 4 → BitVec 4 → Instr} (henc : ∀ a b, encode (f a b) = [op, pack a b])
    (h : formRR f rest = .ok i) : encode i <+: op :: rest := by
  cases rest with
  | nil => cases h
  | cons n1 tl => cases h; simp [henc]

theorem encode_prefix_of_formRRI {f : BitVec 4 → BitVec 4 → Byte → Instr}
    (henc : ∀ a b v, encode (f a b v) = [op, pack a b, v]) (h : formRRI f rest = .ok i) : encode i <+: op :: rest := by
  match rest, h with
  | n1 :: n2 :: tl, h => cases h; simp [henc]

theorem encode_prefix_of_formArith {f : List Byte → Instr} (henc : ∀ ops, encode (f ops) = op :: ops)
    (h : formArith f rest = .ok i) : encode i <+: op :: rest := by
  match rest, h with
  | n1 :: n2 :: n3 :: tl, h => cases h; simp [henc]

/-! ### The opcode map -/

/-- The high nibble of a byte put back before its low one. -/
theorem pack_of_hi {k : BitVec 4} (hk : (hi op).toNat = k.toNat) : pack k (lo op) = op := by
  rw [← BitVec.eq_of_toNat_eq hk, pack_hi_lo]

/-- An opcode byte is known by its two nibbles. -/
theorem eq_pack_of_nibbles {a b : Nat} (ha : (hi op).toNat = a) (hb : (lo op).toNat = b) :
    op = pack (BitVec.ofNat 4 a) (BitVec.ofNat 4 b) := by
  rw [← ha, ← hb, BitVec.ofNat_toNat, BitVec.ofNat_toNat, BitVec.setWidth_eq, BitVec.setWidth_eq, pack_hi_lo]

theorem encode_prefix_of_decode1 (hhi : (hi op).toNat = 1) (h : decode1 op rest = .ok i) : encode i <+: op :: rest := by
  unfold decode1 at h
  split at h
  case h_10 => cases h
  all_goals obtain rfl := eq_pack_of_nibbles hhi ‹(lo op).toNat = _›
  case h_5 => exact encode_prefix_of_formRRI (fun _ _ _ => rfl) h
  all_goals exact encode_prefix_of_formRR (fun _ _ => rfl) h

theorem encode_prefix_of_decode5 (hhi : (hi op).toNat = 5) (h : decode5 op rest = .ok i) : encode i <+: op :: rest := by
  unfold decode5 at h
  split at h
  case h_5 => cases h
  all_goals
    obtain rfl := eq_pack_of_nibbles hhi ‹(lo op).toNat = _›
    exact encode_prefix_of_formRR (fun _ _ => rfl) h

theorem encode_prefix_of_decode7 (hhi : (hi op).toNat = 7) (h : decode7 op rest = .ok i) : encode i <+: op :: rest := by
  unfold decode7 at h
  split at h
  case h_10 => cases h
  all_goals obtain rfl := eq_pack_of_nibbles hhi ‹(lo op).toNat = _›
  case h_1 => exact encode_prefix_of_formI (fun _ => rfl) h
  case h_8 | h_9 => exact encode_prefix_of_formRR (fun _ _ => rfl) h
  all_goals exact encode_prefix_of_formRRI (fun _ _ _ => rfl) h

theorem encode_prefix_of_decodeA (hhi : (hi op).toNat = 10) (h : decodeA op rest = .ok i) : encode i <+: op :: rest := by
  unfold decodeA at h
  split at h
  case h_14 => cases h
  all_goals
    obtain rfl := eq_pack_of_nibbles hhi ‹(lo op).toNat = _›
    exact encode_prefix_of_formArith (fun _ => rfl) h

theorem encode_prefix_of_decodeC (hhi : (hi op).toNat = 12) (h : decodeC op rest = .ok i) : encode i <+: op :: rest := by
  unfold decodeC at h
  split at h
  case h_3 => cases h
  all_goals obtain rfl := eq_pack_of_nibbles hhi ‹(lo op).toNat = _›
  · exact encode_prefix_of_formI (fun _ => rfl) h
  · exact encode_prefix_of_form0 rfl h

theorem encode_prefix_of_decodeE (hhi : (hi op).toNat = 14) (h : decodeE op rest = .ok i) : encode i <+: op :: rest := by
  unfold decodeE at h
  split at h
  case h_12 => cases h
  all_goals obtain rfl := eq_pack_of_nibbles hhi ‹(lo op).toNat = _›
  case h_9 => exact encode_prefix_of_formI (fun _ => rfl) h
  all_goals exact encode_prefix_of_form0 rfl h

/-- A family of one opcode decodes only where the low nibble is 0. -/
theorem encode_prefix_of_decodeSingle {a : Nat} {r : Except DecodeError Instr} (hhi : (hi op).toNat = a)
    (hr : r = .ok i → encode i <+: pack (BitVec.ofNat 4 a) 0 :: rest) (h : decodeSingle op r = .ok i) :
    encode i <+: op :: rest := by
  unfold decodeSingle at h
  split at h
  · obtain rfl := eq_pack_of_nibbles hhi ‹(lo op).toNat = 0›
    exact hr h
  · cases h

/-- The opcode map of R77 read backwards, one high nibble after the other. -/
theorem encode_prefix_of_decodeOpcode (h : decodeOpcode op rest = .ok i) : encode i <+: op :: rest := by
  unfold decodeOpcode at h
  split at h
  next hhi => exact encode_prefix_of_formI (fun v => by rw [encode, pack_of_hi (k := 0) hhi]) h
  next hhi => exact encode_prefix_of_decode1 hhi h
  next hhi => exact encode_prefix_of_decodeSingle hhi (encode_prefix_of_formRR fun _ _ => rfl) h
  next hhi => exact encode_prefix_of_decodeSingle hhi (encode_prefix_of_formRR fun _ _ => rfl) h
  next hhi => exact encode_prefix_of_decodeSingle hhi (encode_prefix_of_formRR fun _ _ => rfl) h
  next hhi => exact encode_prefix_of_decode5 hhi h
  next hhi => exact encode_prefix_of_decode7 hhi h
  next hhi => exact encode_prefix_of_form0 (by rw [encode, pack_of_hi (k := 8) hhi]) h
  next hhi => exact encode_prefix_of_form0 (by rw [encode, pack_of_hi (k := 9) hhi]) h
  next hhi => exact encode_prefix_of_decodeA hhi h
  next hhi => exact encode_prefix_of_decodeC hhi h
  next hhi => exact encode_prefix_of_decodeSingle hhi (encode_prefix_of_form0 rfl) h
  next hhi => exact encode_prefix_of_decodeE hhi h
  next => cases h

/-- Bytes that decode to an instruction begin with its encoding. -/
theorem encode_prefix_of_decode (h : decode (op :: rest) = .ok i) : encode i <+: op :: rest :=
  encode_prefix_of_decodeOpcode h

/-- The opcode byte of the instruction decoded is the one its encoding has. -/
theorem opcode_of_decode (h : decode (op :: rest) = .ok i) {b : Byte} {tl : List Byte} (henc : encode i = b :: tl) :
    op = b := by
  have hpre := encode_prefix_of_decode h
  rw [henc, List.cons_prefix_cons] at hpre
  exact hpre.1.symm

/-- The first operand byte of the instruction decoded is the one its encoding has. -/
theorem operand_of_decode {n1 : Byte} (h : decode (op :: n1 :: rest) = .ok i) {b c : Byte} {tl : List Byte}
    (henc : encode i = b :: c :: tl) : n1 = c := by
  have hpre := encode_prefix_of_decode h
  rw [henc, List.cons_prefix_cons, List.cons_prefix_cons] at hpre
  exact hpre.2.1.symm

end Sys2Proof
end

section
/-! SUPPORT. Everything that one step can do, for the rules that hold in every step. -/

namespace Sys2Proof.Machine

/-- What a step that answers `t` was: a lap of an endless string, an instruction, an invalid opcode, the completion of a
getchar, an action of the host, or nothing at all. -/
inductive StepCases (s t : State) : Prop where
  | lap (hr : s.run = .running) (hs : s.inString = true) (h : t = printStringNext { s with inString := false })
  | instr (hr : s.run = .running) (hs : s.inString = false) (i : Instr)
      (hd : decode [s.load s.pc, s.load (s.pc + 1), s.load (s.pc + 2), s.load (s.pc + 3)] = .ok i)
      (h : exec i (latchOperands (traceFetch s)) = .next t)
  | invalid (hr : s.run = .running) (hs : s.inString = false) (h : t = raiseFault .invalidOpcode (traceFetch s))
  | input (hr : s.run = .awaitInput) (n : Int) (rest : List HostAction) (hh : s.host = .input n :: rest)
      (h : t = completeGetchar n { s with host := rest })
  | host (hm : HostMayAct s) (a : HostAction) (rest : List HostAction) (hh : s.host = a :: rest)
      (h : hostAct a { s with host := rest } = .next t)
  | held (hr : s.run ≠ .running) (hh : s.host = []) (h : t = s)

theorem stepCases_of_running {s t : State} (hr : s.run = .running) (h : step s = .next t) : StepCases s t := by
  rcases running_step_cases hr with ⟨hs, e⟩ | ⟨hs, i, hd, e⟩ | ⟨hs, -, -, e⟩ <;> rw [e] at h
  · cases h; exact .lap hr hs rfl
  · exact .instr hr hs i hd h
  · cases h; exact .invalid hr hs rfl

theorem stepCases_of_awaitInput {s t : State} (hr : s.run = .awaitInput) (h : step s = .next t) : StepCases s t := by
  rw [step_awaitInput hr, awaitStep] at h
  split at h
  next hh => cases h; exact .held (by rw [hr]; decide) hh rfl
  next n rest hh => cases h; exact .input hr n rest hh rfl
  all_goals cases h

/-- The host may not act while the machine runs (10_state.md R38). -/
theorem not_running_of_hostMayAct {s : State} (hm : HostMayAct s) : s.run ≠ .running := by
  rcases hm with hr | hr | hr <;> rw [hr] <;> decide

theorem stepCases_of_hostMayAct {s t : State} (hm : HostMayAct s) (h : step s = .next t) : StepCases s t := by
  rw [step_host hm, hostStep] at h
  split at h
  next hh => cases h; exact .held (not_running_of_hostMayAct hm) hh rfl
  next a rest hh => exact .host hm a rest hh h

/-- Every step is one of these. -/
theorem step_cases {s t : State} (h : step s = .next t) : StepCases s t := by
  cases hr : s.run with
  | running => exact stepCases_of_running hr h
  | awaitInput => exact stepCases_of_awaitInput hr h
  | idle => exact stepCases_of_hostMayAct (.inl hr) h
  | exited => exact stepCases_of_hostMayAct (.inr (.inl hr)) h
  | faulted => exact stepCases_of_hostMayAct (.inr (.inr hr)) h

/-- What no action of the host does: send an event, touch the parameters, break memory's canonical form, or start an endless
string. -/
theorem hostAct_keeps {a : HostAction} {s t : State} (h : hostAct a s = .next t) :
    t.events = s.events ∧ t.params = s.params ∧ (s.mem.wf = true → t.mem.wf = true) ∧
    (s.inString = false → t.inString = false) := by
  cases a with
  | setProgramStart v => cases h; exact ⟨rfl, rfl, id, id⟩
  | setFlags verbose promptOnInput => cases h; exact ⟨rfl, rfl, id, id⟩
  | loadWrite addr v => cases h; exact ⟨rfl, rfl, fun hw => memWrite_wf hw _ _, id⟩
  | load tokens =>
    cases h
    split
    · have heq := loadTokens_eq tokens s
      refine ⟨?_, ?_, loadTokens_wf tokens, ?_⟩ <;> rw [heq]
      exact id
    · exact ⟨rfl, rfl, fun _ => loadFails_wf s, id⟩
  | wipe => cases h; exact ⟨rfl, rfl, fun _ => nil_wf, fun _ => rfl⟩
  | start =>
    dsimp only [hostAct] at h
    split at h
    · cases h
    · cases h; exact ⟨rfl, rfl, fun hw => memWrite_wf hw _ _, fun _ => rfl⟩
  | input n => cases h

/-- The completion of a getchar writes registers and the run state only. -/
theorem completeGetchar_eq (n : Int) (s : State) :
    completeGetchar n s = { s with run := .running, regs := (completeGetchar n s).regs } :=
  writeAdvance_eq 0 (BitVec.ofInt 8 n) 1 { s with run := .running }

/-- Whatever an instruction does, its events come after those sent before it. -/
theorem events_prefix_of_outcomes {i : Instr} {s t : State} (h : Outcomes i s t) : s.events <+: t.events := by
  cases h with
  | fault q es hc h => rw [h, raiseFault_events, emitAll_events, List.append_assoc]; exact List.prefix_append _ _
  | wait hi h he => exact he
  | exit hi h => rw [h, emit_events]; exact List.prefix_append _ _
  | endless hi he h => rw [h]; exact List.prefix_append _ _
  | effects h => exact h.2

theorem events_prefix_traceFetch (s : State) : s.events <+: (traceFetch s).events := by
  rw [traceFetch_events]
  split
  · exact List.prefix_append _ _
  · exact List.prefix_rfl

end Sys2Proof.Machine
end

section
/-! SUPPORT. Memory and the events over every step (20_memory.md R50, R51, R54, R58, R63). -/

namespace Sys2Proof.Machine

/-! ### The invariant -/

/-- With no string in progress the invariant is memory's canonical form. -/
theorem inv_of_inString_false {s : State} (hw : s.mem.wf = true) (hs : s.inString = false) : Inv s :=
  ⟨hw, fun h => absurd (hs.symm.trans h) (by decide)⟩

/-- No string is in progress while the machine is not running. -/
theorem inString_false_of_inv {s : State} (hi : Inv s) (hr : s.run ≠ .running) : s.inString = false := by
  cases hs : s.inString
  · rfl
  · exact absurd (hi.2 hs).1 hr

/-- The key fact: the one outcome that marks a string in progress is a scan that read every cell and met no zero byte. -/
theorem inv_of_outcomes {i : Instr} {s t : State} (hr : s.run = .running) (hs : s.inString = false)
    (hw : t.mem.wf = true) (h : Outcomes i s t) : Inv t := by
  cases h with
  | fault q es hc h => exact inv_of_inString_false hw (by rw [h]; exact hs)
  | wait hi h he => exact inv_of_inString_false hw (by rw [h]; exact hs)
  | exit hi h => exact inv_of_inString_false hw (by rw [h]; exact hs)
  | endless hi he h =>
    obtain ⟨hwrap, hmem⟩ := of_scanAt_endless he
    rw [h] at hw ⊢
    exact ⟨hw, fun _ => ⟨hr, hwrap, hmem⟩⟩
  | effects h => exact inv_of_inString_false hw (by rw [h.1]; exact hs)

/-- Settles O50: only a running machine can enter a string; every other step leaves none in progress. -/
theorem stepKeepsInvariant : Obligations.StepKeepsInvariant := by
  intro s t hi hst
  have hw : s.mem.wf = true := hi.1
  cases step_cases hst with
  | lap hr hs h =>
    rw [h]
    refine inv_of_outcomes (s := { s with inString := false }) hr rfl ?_ (outcomes_printStringNext _)
    rw [printStringNext_mem]
    exact hw
  | instr hr hs i hd h =>
    exact inv_of_outcomes (s := latchOperands (traceFetch s)) hr hs (exec_mem_wf h hw) (exec_outcomes h)
  | invalid hr hs h => rw [h]; exact inv_of_inString_false hw hs
  | input hr n rest hh h =>
    have hs := inString_false_of_inv hi (by rw [hr]; decide)
    rw [h, completeGetchar_eq]
    exact inv_of_inString_false hw hs
  | host hm a rest hh h =>
    have hs := inString_false_of_inv hi (not_running_of_hostMayAct hm)
    obtain ⟨-, -, hwf, hstr⟩ := hostAct_keeps h
    exact inv_of_inString_false (hwf hw) (hstr hs)
  | held hr hh h => rw [h]; exact hi

/-! ### Which instructions write memory -/

theorem encode_arithInstr (op : ArithOp) (ops : List Byte) : encode (arithInstr op ops) = arithOpcode op :: ops := by
  cases op <;> rfl

theorem arithByte_arithOpcode (op : ArithOp) : ArithByte (arithOpcode op) := by
  cases op <;> decide

theorem pushByte_pack (d : Reg) : PushByte (pack 0x8 d) :=
  (by decide : ∀ d : Reg, PushByte (pack 0x8 d)) d

/-- An instruction that changes the byte at `a` is a storing one, and `a` is its address (20_memory.md R51). -/
theorem storing_of_load_ne {i : Instr} {s t : State} {a : Byte} (hw : s.mem.wf = true) (h : MemChange i s t)
    (hne : t.load a ≠ s.load a) :
    (∃ r b, (i = .storeIndirect r b ∨ i = .copyIndirect r b) ∧ a = s.reg r) ∨
    (((∃ d, i = .push d) ∨ ∃ x, i = .call x) ∧ a = s.sp - 1) ∨
    ∃ op ops, i = arithInstr op ops := by
  have haddr : ∀ {x v : Byte}, t.mem = memWrite s.mem x v → a = x := fun {x v} e => by
    by_contra hax
    exact hne ((congrArg (memRead · a) e).trans (memSameExcept_store hw x v a hax))
  cases h with
  | same e => exact absurd (memSame_of_mem_eq e a) hne
  | indirect r b v hi e => exact .inl ⟨r, b, hi, haddr e⟩
  | stack v hi e => exact .inr (.inl ⟨hi, haddr e⟩)
  | arith op ops ws hi e => exact .inr (.inr ⟨op, ops, hi⟩)

/-- Settles O46: a lap and a fault leave memory; an instruction that stores has the opcode and operand bytes its encoding
begins with. -/
theorem onlyStoringInstructionsWriteMemory : Obligations.OnlyStoringInstructionsWriteMemory := by
  intro s t a hw hr hst hne
  rcases running_step_cases hr with ⟨-, e⟩ | ⟨-, i, hd, e⟩ | ⟨-, -, -, e⟩ <;> rw [e] at hst
  · cases hst
    exact absurd (memSame_of_mem_eq (printStringNext_mem { s with inString := false }) a) hne
  · rcases storing_of_load_ne (s := latchOperands (traceFetch s)) hw (exec_mem hst) hne with
      ⟨r, b, rfl | rfl, ha⟩ | ⟨⟨d, rfl⟩ | ⟨x, rfl⟩, ha⟩ | ⟨op, ops, rfl⟩
    · refine .inl ⟨opcode_of_decode hd rfl, ?_⟩
      rw [operand_of_decode hd rfl, hi_pack]
      exact ha
    · refine .inr (.inl ⟨opcode_of_decode hd rfl, ?_⟩)
      rw [operand_of_decode hd rfl, hi_pack]
      exact ha
    · refine .inr (.inr (.inl ⟨.inl ?_, ha⟩))
      rw [opcode_of_decode hd rfl]
      exact pushByte_pack d
    · exact .inr (.inr (.inl ⟨.inr (opcode_of_decode hd rfl), ha⟩))
    · refine .inr (.inr (.inr ?_))
      rw [opcode_of_decode hd (encode_arithInstr op ops)]
      exact arithByte_arithOpcode op
  · cases hst
    exact absurd rfl hne

/-! ### The order of the events -/

/-- Settles O47: each kind of step adds its events at the end, or none. -/
theorem eventsAreAppended : Obligations.EventsAreAppended := by
  intro s t hst
  cases step_cases hst with
  | lap hr hs h =>
    rw [h]
    exact events_prefix_of_outcomes (s := { s with inString := false }) (outcomes_printStringNext _)
  | instr hr hs i hd h =>
    have hexec := events_prefix_of_outcomes (s := latchOperands (traceFetch s)) (exec_outcomes h)
    exact (events_prefix_traceFetch s).trans hexec
  | invalid hr hs h =>
    rw [h, raiseFault_events]
    exact (events_prefix_traceFetch s).trans (List.prefix_append _ _)
  | input hr n rest hh h => rw [h, completeGetchar_eq]
  | host hm a rest hh h =>
    obtain ⟨hev, -⟩ := hostAct_keeps h
    rw [hev]
  | held hr hh h => rw [h]

/-! ### A read after a write -/

/-- Settles O51: `load_store` at the address and beside it. -/
theorem loadAfterStore : Obligations.LoadAfterStore := by
  intro s a v b hw
  have hread : (s.store a v).load a = v := (load_store hw a v a).trans (if_pos rfl)
  exact ⟨hread, memSameExcept_store hw a v b, memWrite_wf hw a v, fun _ _ => rfl, rfl, rfl⟩

end Sys2Proof.Machine
end

section
/-! SUPPORT. Decoding undoes encoding and encoding undoes decoding (30_encoding.md R72, R73, R77 to R79). -/

namespace Sys2Proof.Machine

/-! ### Decoding an encoding -/

/-- The operand bytes of a well-formed add/sub instruction are read back as they stand. -/
theorem formArith_of_opsWellFormed (f : List Byte → Instr) {ops : List Byte} (h : opsWellFormed ops = true)
    (rest : List Byte) : formArith f (ops ++ rest) = .ok (f ops) := by
  obtain ⟨a, b, c, rfl⟩ := (opsWellFormed_iff ops).1 h
  rfl

/-- Settles O1: each opcode byte selects the form that its encoding was written in, and the form reads its operands back. -/
theorem decodeOfEncode : Obligations.DecodeOfEncode := by
  intro i rest hw
  cases i
  case movImmediate d imm => exact decode_movImmediate d (imm :: rest)
  case push d => exact decode_push d rest
  case pop d => exact decode_pop d rest
  case movRegReg | loadIndirect | storeIndirect | copyIndirect | incImm | decImm | pcOffsetPlus | pcOffsetMinus | and | or
      | xor | shl | shr | rol | ror | skipIfNZ | skipIfZ => exact formRR_pack _ _ _ rest
  case movPair | jl | jle | je | jge | jg | jne => exact formRRI_pack _ _ _ _ rest
  case jmp | call | genericDump => exact formI_cons _ _ rest
  case arithA0 | arithA1 | arithA2 | arithA3 | arithA4 | arithA5 | arithA6 | arithA7 | arithA8 | arithA9 | arithAA | arithAB
      | arithAC => exact formArith_of_opsWellFormed _ hw rest
  all_goals rfl

/-! ### Encoding what was decoded -/

/-- An instruction is of the add/sub family, or its opcode fixes how many operand bytes it uses (R74). -/
theorem arithInstr_or_usedOperands (i : Instr) : (∃ a ops, i = arithInstr a ops) ∨ ∃ k, usedOperands i = some k := by
  cases i
  case arithA0 ops => exact .inl ⟨.a0, ops, rfl⟩
  case arithA1 ops => exact .inl ⟨.a1, ops, rfl⟩
  case arithA2 ops => exact .inl ⟨.a2, ops, rfl⟩
  case arithA3 ops => exact .inl ⟨.a3, ops, rfl⟩
  case arithA4 ops => exact .inl ⟨.a4, ops, rfl⟩
  case arithA5 ops => exact .inl ⟨.a5, ops, rfl⟩
  case arithA6 ops => exact .inl ⟨.a6, ops, rfl⟩
  case arithA7 ops => exact .inl ⟨.a7, ops, rfl⟩
  case arithA8 ops => exact .inl ⟨.a8, ops, rfl⟩
  case arithA9 ops => exact .inl ⟨.a9, ops, rfl⟩
  case arithAA ops => exact .inl ⟨.aa, ops, rfl⟩
  case arithAB ops => exact .inl ⟨.ab, ops, rfl⟩
  case arithAC ops => exact .inl ⟨.ac, ops, rfl⟩
  all_goals exact .inr ⟨_, rfl⟩

/-- Only the add/sub family can be ill-formed. -/
theorem wellFormed_of_usedOperands {i : Instr} {k : Nat} (h : usedOperands i = some k) : wellFormed i = true := by
  cases i <;> cases h <;> rfl

/-- The add/sub opcodes decode to the operand bytes of the window. -/
theorem decode_arithOpcode (a : ArithOp) (rest : List Byte) :
    decode (arithOpcode a :: rest) = formArith (arithInstr a) rest := by
  cases a <;> rfl

theorem arithInstr_injective (a : ArithOp) : Function.Injective (arithInstr a) := by
  cases a <;> exact fun _ _ h => by cases h; rfl

/-- An add/sub instruction decoded from the fetch window carries the window's three operand bytes. -/
theorem ops_of_decode_arithInstr {op n1 n2 n3 : Byte} {a : ArithOp} {ops : List Byte}
    (h : decode [op, n1, n2, n3] = .ok (arithInstr a ops)) : ops = [n1, n2, n3] := by
  obtain rfl := opcode_of_decode h (encode_arithInstr a ops)
  rw [decode_arithOpcode, formArith_cons] at h
  exact (arithInstr_injective a (Except.ok.inj h)).symm

/-- Settles O2: `encode_prefix_of_decode`, and a window has the three operand bytes that an add/sub instruction needs. -/
theorem encodeOfDecode : Obligations.EncodeOfDecode := by
  intro op n1 n2 n3 i h
  refine ⟨?_, encode_prefix_of_decode h⟩
  rcases arithInstr_or_usedOperands i with ⟨a, ops, rfl⟩ | ⟨k, hk⟩
  · rw [wellFormed_arithInstr, ops_of_decode_arithInstr h]
    rfl
  · exact wellFormed_of_usedOperands hk

end Sys2Proof.Machine
end

section
/-! SUPPORT. The opcode bytes that the decoder rejects, and what fetching one does (30_encoding.md R77, R78, R80). -/

namespace Sys2Proof

variable {op : Byte}

/-! ### The forms never reject an opcode byte -/

@[simp] theorem form0_ne_invalidOpcode (i : Instr) : form0 i ≠ .error (.invalidOpcode op) := nofun

@[simp] theorem formI_ne_invalidOpcode (f : Byte → Instr) (rest : List Byte) :
    formI f rest ≠ .error (.invalidOpcode op) := by
  cases rest <;> nofun

@[simp] theorem formRR_ne_invalidOpcode (f : BitVec 4 → BitVec 4 → Instr) (rest : List Byte) :
    formRR f rest ≠ .error (.invalidOpcode op) := by
  cases rest <;> nofun

@[simp] theorem formRRI_ne_invalidOpcode (f : BitVec 4 → BitVec 4 → Byte → Instr) (rest : List Byte) :
    formRRI f rest ≠ .error (.invalidOpcode op) := by
  unfold formRRI
  split <;> nofun

@[simp] theorem formArith_ne_invalidOpcode (f : List Byte → Instr) (rest : List Byte) :
    formArith f rest ≠ .error (.invalidOpcode op) := by
  unfold formArith
  split <;> nofun

/-! ### The low nibbles that each high nibble rejects -/

variable (rest : List Byte)

theorem decode1_invalid_iff : decode1 op rest = .error (.invalidOpcode op) ↔ 9 ≤ (lo op).toNat := by
  unfold decode1
  split
  case h_10 => simp only [imp_false, true_iff] at *; omega
  all_goals simp [*]

theorem decode5_invalid_iff : decode5 op rest = .error (.invalidOpcode op) ↔ 4 ≤ (lo op).toNat := by
  unfold decode5
  split
  case h_5 => simp only [imp_false, true_iff] at *; omega
  all_goals simp [*]

theorem decode7_invalid_iff : decode7 op rest = .error (.invalidOpcode op) ↔ 9 ≤ (lo op).toNat := by
  unfold decode7
  split
  case h_10 => simp only [imp_false, true_iff] at *; omega
  all_goals simp [*]

theorem decodeA_invalid_iff : decodeA op rest = .error (.invalidOpcode op) ↔ 13 ≤ (lo op).toNat := by
  unfold decodeA
  split
  case h_14 => simp only [imp_false, true_iff] at *; omega
  all_goals simp [*]

theorem decodeC_invalid_iff :
    decodeC op rest = .error (.invalidOpcode op) ↔ (lo op).toNat ≠ 2 ∧ (lo op).toNat ≠ 3 := by
  unfold decodeC
  split
  case h_3 => simp only [imp_false, true_iff] at *; omega
  all_goals simp [*]

theorem decodeE_invalid_iff :
    decodeE op rest = .error (.invalidOpcode op) ↔ 3 ≤ (lo op).toNat ∧ (lo op).toNat ≤ 7 := by
  unfold decodeE
  split
  case h_12 => have := (lo op).isLt; simp only [imp_false, true_iff] at *; omega
  all_goals simp [*]

theorem decodeSingle_invalid_iff {r : Except DecodeError Instr} (hr : r ≠ .error (.invalidOpcode op)) :
    decodeSingle op r = .error (.invalidOpcode op) ↔ (lo op).toNat ≠ 0 := by
  unfold decodeSingle
  split
  case h_1 => simp [*]
  case h_2 => simp only [imp_false, true_iff] at *; omega

/-- A byte as a number, from its two nibbles. -/
theorem toNat_eq_nibbles (b : Byte) : b.toNat = 16 * (hi b).toNat + (lo b).toNat := by
  revert b; decide

/-- The opcode map's rejections are R78's ranges, one high nibble after the other. -/
theorem decodeOpcode_invalid_iff :
    decodeOpcode op rest = .error (.invalidOpcode op) ↔ Machine.InvalidByte op := by
  have hop := toNat_eq_nibbles op
  have hhi := (hi op).isLt
  have hlo := (lo op).isLt
  unfold decodeOpcode
  split
  case h_1 | h_8 | h_9 => exact iff_of_false (by simp) (by omega)
  case h_2 => rw [decode1_invalid_iff]; omega
  case h_3 | h_4 | h_5 | h_12 => rw [decodeSingle_invalid_iff (by simp)]; omega
  case h_6 => rw [decode5_invalid_iff]; omega
  case h_7 => rw [decode7_invalid_iff]; omega
  case h_10 => rw [decodeA_invalid_iff]; omega
  case h_11 => rw [decodeC_invalid_iff]; omega
  case h_13 => rw [decodeE_invalid_iff]; omega
  case h_14 => simp only [imp_false, true_iff] at *; omega

end Sys2Proof

namespace Sys2Proof.Machine

/-- Settles O3: the decoder dispatches on the opcode byte alone. -/
theorem invalidBytesAreExactlyThoseListed : Obligations.InvalidBytesAreExactlyThoseListed :=
  fun _ rest => decodeOpcode_invalid_iff rest

/-- Settles O4: such a byte decodes to no instruction, so the running machine's step is the fault entry after the trace. -/
theorem invalidOpcodeFaults : Obligations.InvalidOpcodeFaults := by
  intro s hr hs hop
  have herr := (decodeOpcode_invalid_iff [s.load (s.pc + 1), s.load (s.pc + 2), s.load (s.pc + 3)]).2 hop
  refine ⟨raiseFault .invalidOpcode (traceFetch s), ?_, faultedFrom_raiseFault .invalidOpcode (traceFetch s)⟩
  rw [step_running hr hs, runStep, fetchWindow_fetched, decode, herr]

/-- Settles O5: each word evaluated by the decoder. -/
theorem sampleWordsDecode : Obligations.SampleWordsDecode := by
  unfold Obligations.SampleWordsDecode
  decide

/-- Settles O6: the window that the sequencer decodes is the four bytes at pc. -/
theorem stepRunsDecodedInstruction : Obligations.StepRunsDecodedInstruction := by
  intro s i hr hs hd _
  rw [step_running hr hs, runStep, fetchWindow_fetched, hd]
  rfl

end Sys2Proof.Machine
end

section
/-! SUPPORT. What an operand byte that an instruction does not use, and the operand latch, cannot reach (30_encoding.md R71). -/

namespace Sys2Proof.Machine

/-! ### The decoder -/

/-- The encoding is the opcode byte and the used operand bytes (R73, R74). -/
theorem length_encode_of_usedOperands {i : Instr} {k : Nat} (h : usedOperands i = some k) :
    (encode i).length = k + 1 := by
  cases i <;> cases h <;> rfl

/-- The used bytes are the encoding, so they decode alone. -/
theorem decode_take_usedOperands {bytes : List Byte} (rest : List Byte) {i : Instr} {k : Nat} (hd : decode bytes = .ok i)
    (hk : usedOperands i = some k) : decode (bytes.take (k + 1) ++ rest) = .ok i := by
  cases bytes with
  | nil => cases hd
  | cons op tl =>
    have henc := List.prefix_iff_eq_take.1 (encode_prefix_of_decode hd)
    rw [length_encode_of_usedOperands hk] at henc
    rw [← henc]
    exact decodeOfEncode i rest (wellFormed_of_usedOperands hk)

/-! ### The add/sub family (44_add_sub.md R180) -/

section
variable {n : Nat} {ops ops' : List Byte}

/-- The `n` used operand bytes are the first `n` latched ones. -/
theorem arithOperand_eq_of_take_eq (h : ops.take n = ops'.take n) : arithOperand ops (n := n) = arithOperand ops' := by
  funext k
  have hk := congrArg (fun l : List Byte => l[k.val]?) h
  simp only [List.getElem?_take_of_lt k.isLt] at hk
  simp only [arithOperand, List.getD_eq_getElem?_getD, hk]

theorem arithSrc_eq_of_operand_eq (h : arithOperand ops (n := n) = arithOperand ops') (s : State) :
    arithSrc s ops (n := n) = arithSrc s ops' := by
  funext src
  cases src <;> simp only [arithSrc, h]

end

theorem arith_eq_of_take_eq {op : ArithOp} {ops ops' : List Byte}
    (h : ops.take (Config.arith op).nOps.val = ops'.take (Config.arith op).nOps.val) (s : State) :
    arith op ops s = arith op ops' s := by
  have hop := arithOperand_eq_of_take_eq h
  simp only [arith, arithNext, arithWrites, arithValue, hop, arithSrc_eq_of_operand_eq hop]

/-! ### The latch -/

/-- `s` with other bytes in the operand latch. -/
def State.withLatch (l : Latch) (s : State) : State := { s with latch := l }

section
variable {l : Latch} {s body body' : State}

/-- No operation reads the latch, so a check with the latch replaced takes the same branch. -/
theorem withOperands_withLatch (h : body' = body.withLatch l) (k : Nat) :
    withOperands k (s.withLatch l) body' = (withOperands k s body).withLatch l := by
  unfold withOperands
  rw [h, apply_ite (State.withLatch l)]
  rfl

theorem withPush_withLatch (h : body' = body.withLatch l) :
    withPush (s.withLatch l) body' = (withPush s body).withLatch l := by
  unfold withPush
  rw [h, apply_ite (State.withLatch l)]
  rfl

theorem withPop_withLatch (h : body' = body.withLatch l) :
    withPop (s.withLatch l) body' = (withPop s body).withLatch l := by
  unfold withPop
  rw [h, apply_ite (State.withLatch l)]
  rfl

end

section
variable (l : Latch) (s : State)

theorem advance_withLatch (len : Byte) (w : Bool) : advance len w (s.withLatch l) = (advance len w s).withLatch l := by
  unfold advance
  rw [apply_ite (State.withLatch l)]
  rfl

theorem writeAdvance_withLatch (a : Reg) (v len : Byte) :
    writeAdvance a v len (s.withLatch l) = (writeAdvance a v len s).withLatch l :=
  advance_withLatch l (s.setReg a v) _ _

theorem writeNext_withLatch (a : Reg) (v : Byte) : writeNext a v (s.withLatch l) = (writeNext a v s).withLatch l :=
  withOperands_withLatch (writeAdvance_withLatch l s _ _ _) _

theorem rrNext_withLatch (f : Byte → Byte → Byte) (a b : Reg) :
    rrNext f a b (s.withLatch l) = (rrNext f a b s).withLatch l :=
  withOperands_withLatch (writeAdvance_withLatch l s _ _ _) _

theorem rotateNext_withLatch (f : Byte → Byte → Byte) (a b : Reg) :
    rotateNext f a b (s.withLatch l) = (rotateNext f a b s).withLatch l := by
  refine withOperands_withLatch ?_ _
  rw [apply_ite (State.withLatch l)]
  exact ite_congr rfl (fun _ => writeAdvance_withLatch l { s with draws := s.draws + 1 } _ _ _)
    (fun _ => writeAdvance_withLatch l s _ _ _)

theorem arithApplyAll_withLatch (ws : List (ArithDest × Byte)) :
    arithApplyAll (s.withLatch l) ws = (arithApplyAll s ws).withLatch l := by
  induction ws generalizing s with
  | nil => rfl
  | cons w rest ih =>
    obtain ⟨d, v⟩ := w
    cases d with
    | reg i => exact ih (s.setReg (BitVec.ofNat 4 i.val) v)
    | mem x => exact ih (s.store x v)

theorem arithNext_withLatch (e : ArithEntry) (ops : List Byte) :
    arithNext e ops (s.withLatch l) = (arithNext e ops s).withLatch l := by
  refine withOperands_withLatch ?_ _
  rw [arithApplyAll_withLatch, advance_withLatch]
  rfl

theorem printStringNext_withLatch : printStringNext (s.withLatch l) = (printStringNext s).withLatch l := by
  have hscan : scanAt (s.withLatch l) = scanAt s := rfl
  unfold printStringNext
  rw [hscan]
  cases (scanAt s).2 <;> rfl

end

theorem arith_withLatch {op : ArithOp} {ops : List Byte} {s t : State} (h : arith op ops s = .next t) (l : Latch) :
    arith op ops (s.withLatch l) = .next (t.withLatch l) := by
  have hp : (s.withLatch l).params = s.params := rfl
  unfold arith at h ⊢
  rw [hp]
  split at h
  · cases h
    rw [arithNext_withLatch, if_pos ‹_›]
  · cases h

/-- A meaning answers the same state, the latch apart, whatever the latch holds. -/
theorem exec_withLatch {i : Instr} {s t : State} (h : exec i s = .next t) (l : Latch) :
    exec i (s.withLatch l) = .next (t.withLatch l) := by
  cases i
  case movImmediate d imm =>
    cases h
    refine congrArg Host.Outcome.next (withOperands_withLatch ?_ _)
    rw [apply_ite (State.withLatch l), ← writeAdvance_withLatch]
    rfl
  case movRegReg | loadIndirect | incImm | decImm | pcOffsetPlus | pcOffsetMinus =>
    cases h; exact congrArg Host.Outcome.next (writeNext_withLatch l s _ _)
  case storeIndirect | copyIndirect =>
    cases h
    exact congrArg Host.Outcome.next (withOperands_withLatch (advance_withLatch l (s.store _ _) _ _) _)
  case movPair a b imm =>
    cases h
    exact congrArg Host.Outcome.next (withOperands_withLatch (advance_withLatch l ((s.setReg a imm).setReg b imm) _ _) _)
  case and | or | xor | shl | shr => cases h; exact congrArg Host.Outcome.next (rrNext_withLatch l s _ _ _)
  case rol | ror => cases h; exact congrArg Host.Outcome.next (rotateNext_withLatch l s _ _ _)
  case jmp | jl | jle | je | jge | jg | jne | skipIfNZ | skipIfZ =>
    cases h; exact congrArg Host.Outcome.next (withOperands_withLatch (by rfl) _)
  case push d =>
    cases h; exact congrArg Host.Outcome.next (withPush_withLatch (advance_withLatch l (pushByte _ s) _ _))
  case pop d =>
    cases h
    refine congrArg Host.Outcome.next (withPop_withLatch ?_)
    rw [apply_ite (State.withLatch l), ← writeAdvance_withLatch]
    rfl
  case call target => cases h; exact congrArg Host.Outcome.next (withOperands_withLatch (withPush_withLatch (by rfl)) _)
  case ret => cases h; exact congrArg Host.Outcome.next (withPop_withLatch (by rfl))
  case nop => cases h; exact congrArg Host.Outcome.next (advance_withLatch l s _ _)
  case putchar | dumpReg0 | dumpReg1 | dumpMem | dumpRange | dumpRegR1 | fileDump =>
    cases h; exact congrArg Host.Outcome.next (advance_withLatch l (emitAll _ s) _ _)
  case genericDump id =>
    cases h
    exact congrArg Host.Outcome.next (withOperands_withLatch (advance_withLatch l (emitAll _ s) _ _) _)
  case printString => cases h; exact congrArg Host.Outcome.next (printStringNext_withLatch l s)
  case getchar | exit => cases h; rfl
  all_goals exact arith_withLatch h l

/-- No meaning writes the latch. -/
theorem latch_of_outcomes {i : Instr} {s t : State} (h : Outcomes i s t) : t.latch = s.latch := by
  cases h with
  | fault q es hc h => rw [h, raiseFault_latch, emitAll_latch]
  | wait hi h he => rw [h]
  | exit hi h => rw [h, emit_latch]
  | endless hi he h => rw [h, emitAll_latch]
  | effects h => rw [h.1]

/-- Settles O7: the used bytes alone decode; ARITH's values read the used operand bytes; the latch is neither read nor
written. -/
theorem unusedOperandBytesHaveNoEffect : Obligations.UnusedOperandBytesHaveNoEffect := by
  refine ⟨fun bytes rest i k hd hk => decode_take_usedOperands rest hd hk, fun op ops ops' s h => ?_,
    fun i s t l h => ⟨latch_of_outcomes (exec_outcomes h), exec_withLatch h l⟩⟩
  rw [exec_arithInstr, exec_arithInstr, arith_eq_of_take_eq h]

end Sys2Proof.Machine
end

section
/-! SUPPORT. The moves, the literal arithmetic and the pc offsets (40_register_memory.md), and the statements about them. -/

namespace Sys2Proof.Machine

/-! ### The two-register formats (30_encoding.md R73) -/

/-- An opcode byte of format RR or RN, followed by its two nibbles. -/
theorem decodes_of_formRR {op : Byte} {f : BitVec 4 → BitVec 4 → Instr}
    (hop : ∀ rest, decode (op :: rest) = formRR f rest) (a b : BitVec 4) : Decodes [op, a ++ b] (f a b) :=
  fun rest => (hop _).trans (formRR_pack f a b rest)

/-- An opcode byte of format RRI, followed by its two nibbles and its literal. -/
theorem decodes_of_formRRI {op : Byte} {f : BitVec 4 → BitVec 4 → Byte → Instr}
    (hop : ∀ rest, decode (op :: rest) = formRRI f rest) (a b : BitVec 4) (v : Byte) :
    Decodes [op, a ++ b, v] (f a b v) :=
  fun rest => (hop _).trans (formRRI_pack f a b v rest)

/-! ### The instructions that write one register, or store one byte, and have length 2 -/

theorem completes_of_writeNext {i : Instr} {a : Reg} {v : Byte} {s : State} (he : exec i s = .next (writeNext a v s)) :
    CompletesOrRangeFault 1 i s (RegResult a v 2 s) :=
  completesOrRangeFault_of_exec he (regResult_writeAdvance a v 2 s)

theorem completes_of_store {i : Instr} {addr v : Byte} {s : State} (hw : s.mem.wf = true)
    (he : exec i s = .next (withOperands 1 s (advance 2 false (s.store addr v)))) :
    CompletesOrRangeFault 1 i s (StoreResult addr v 2 s) :=
  completesOrRangeFault_of_exec he (storeResult_advance hw addr v 2)

/-- Settles O8: the advance is skipped exactly where the destination is r15. -/
theorem movImmediateResult : Obligations.MovImmediateResult := by
  refine fun d imm s => ⟨fun rest => decode_movImmediate d (imm :: rest), completesOrRangeFault_of_exec rfl ?_⟩
  by_cases hd : d = pcReg
  · rw [if_pos hd]
    exact ⟨fun _ => jumpResult_setPc imm s, fun hne => absurd hd hne⟩
  · rw [if_neg hd]
    exact ⟨fun heq => absurd heq hd, fun _ => regResult_writeAdvance d imm 2 s⟩

/-- Settles O9: one register write of x[b]. -/
theorem movRegRegResult : Obligations.MovRegRegResult :=
  fun a b _ => ⟨decodes_of_formRR decode_movRegReg a b, completes_of_writeNext rfl⟩

/-- Settles O10: one register write of the byte at x[b]. -/
theorem loadIndirectResult : Obligations.LoadIndirectResult :=
  fun a b _ => ⟨decodes_of_formRR decode_loadIndirect a b, completes_of_writeNext rfl⟩

/-- Settles O11: one store of x[b] at x[a]. -/
theorem storeIndirectResult : Obligations.StoreIndirectResult :=
  fun a b _ hw => ⟨decodes_of_formRR decode_storeIndirect a b, completes_of_store hw rfl⟩

/-- Settles O12: one store of the byte at x[b], read before the store, at x[a]. -/
theorem copyIndirectResult : Obligations.CopyIndirectResult :=
  fun a b _ hw => ⟨decodes_of_formRR decode_copyIndirect a b, completes_of_store hw rfl⟩

/-! ### Bytes plus and minus a 4-bit literal (R75) -/

@[simp] theorem toNat_literal (n : Nibble) : (literal n).toNat = n.toNat :=
  BitVec.toNat_setWidth_of_le (by decide)

theorem add_literal (v : Byte) (n : Nibble) : v + literal n = BitVec.ofNat 8 ((v.toNat + n.toNat) % 256) := by
  apply BitVec.eq_of_toNat_eq
  rw [BitVec.toNat_add, toNat_literal, BitVec.toNat_ofNat, Nat.mod_mod]

theorem sub_literal (v : Byte) (n : Nibble) :
    v - literal n = BitVec.ofInt 8 (((v.toNat : Int) - n.toNat) % 256) := by
  have hofInt := toNat_ofInt_byte (((v.toNat : Int) - n.toNat) % 256)
  have hn := n.isLt
  apply BitVec.eq_of_toNat_eq
  rw [BitVec.toNat_sub, toNat_literal]
  omega

/-- Settles O14: one register write of the sum or the difference, which bytes take mod 256. -/
theorem incDecResult : Obligations.IncDecResult := by
  intro a n s
  rw [← add_literal, ← sub_literal]
  exact ⟨decodes_of_formRR decode_incImm a n, decodes_of_formRR decode_decImm a n,
    completes_of_writeNext rfl, completes_of_writeNext rfl⟩

/-- Settles O15: as incImm and decImm, from A. -/
theorem pcOffsetResult : Obligations.PcOffsetResult := by
  intro a n s
  rw [← add_literal, ← sub_literal]
  exact ⟨decodes_of_formRR decode_pcOffsetPlus a n, decodes_of_formRR decode_pcOffsetMinus a n,
    completes_of_writeNext rfl, completes_of_writeNext rfl⟩

/-! ### movPair (R105) -/

/-- The two writes of a movPair, before its advance. -/
def State.setPair (a b : Reg) (v : Byte) (s : State) : State := (s.setReg a v).setReg b v

theorem reg_setPair (a b : Reg) (v : Byte) (s : State) (q : Reg) :
    (s.setPair a b v).reg q = if q = b ∨ q = a then v else s.reg q := by
  rw [State.setPair, reg_setReg, reg_setReg, ite_or]

theorem pc_setPair {a b : Reg} (h : a = pcReg ∨ b = pcReg) (v : Byte) (s : State) : (s.setPair a b v).pc = v :=
  (reg_setPair a b v s pcReg).trans (if_pos (h.symm.imp Eq.symm Eq.symm))

theorem pc_setPair_ne {a b : Reg} (ha : a ≠ pcReg) (hb : b ≠ pcReg) (v : Byte) (s : State) :
    (s.setPair a b v).pc = s.pc :=
  (reg_setPair a b v s pcReg).trans (if_neg (not_or.2 ⟨hb.symm, ha.symm⟩))

/-- The advance of 10_state.md R28 under P_PC_WRITE = advance, whatever was written. -/
theorem pc_advance_of_advance {s : State} (h : s.params.pcWrite = .advance) (len : Byte) (w : Bool) :
    (advance len w s).pc = s.pc + len := by
  simp [advance, h]

/-- No advance after a write of r15 under P_PC_WRITE = bypass (R28). -/
theorem advance_true_of_bypass {s : State} (h : s.params.pcWrite = .bypass) (len : Byte) : advance len true s = s :=
  if_pos ⟨h, rfl⟩

theorem exec_movPair (a b : Reg) (imm : Byte) (s : State) : exec (.movPair a b imm) s =
    .next (withOperands 2 s (advance 3 (a == pcReg || b == pcReg) (s.setPair a b imm))) := rfl

/-- Settles O13: both writes, then one advance, before which r15 holds the literal where either destination was r15. -/
theorem movPairResult : Obligations.MovPairResult := by
  refine fun a b imm s => ⟨decodes_of_formRRI decode_movPair a b imm,
    completesOrRangeFault_of_exec (exec_movPair a b imm s) ?_⟩
  have hframe := advance_eq 3 (a == pcReg || b == pcReg) (s.setPair a b imm)
  refine ⟨fun ha => ?_, fun hb => ?_, fun ha hb => ?_, fun h hp => ?_, fun h hp => ?_, fun q hq => ?_, ?_, ?_, ?_⟩
  · rw [reg_advance _ _ _ ha, reg_setPair, if_pos (.inr rfl)]
  · rw [reg_advance _ _ _ hb, reg_setPair, if_pos (.inl rfl)]
  · have hw : (a == pcReg || b == pcReg) = false := by simp [ha, hb]
    rw [hw, advance_false, pc_setPc, pc_setPair_ne ha hb]
  · rw [pc_advance_of_advance (s := s.setPair a b imm) hp, pc_setPair h]
  · have hw : (a == pcReg || b == pcReg) = true := by simpa using h
    rw [hw, advance_true_of_bypass (s := s.setPair a b imm) hp, pc_setPair h]
  · simp only [List.mem_cons, List.not_mem_nil, or_false, not_or] at hq
    obtain ⟨hqa, hqb, hqpc⟩ := hq
    rw [reg_advance _ _ _ hqpc, reg_setPair, if_neg (not_or.2 ⟨hqb, hqa⟩)]
  · rw [hframe]; exact fun _ => rfl
  · rw [hframe]; rfl
  · unfold RestSame; rw [hframe]; rfl

end Sys2Proof.Machine
end

section
/-! SUPPORT. The logic, shift and rotate instructions (41_logic_shift.md), and the statements about them. -/

namespace Sys2Proof.Machine

/-! ### The bitwise instructions (R130 to R132) -/

theorem completes_of_rrNext {i : Instr} {f : Byte → Byte → Byte} {a b : Reg} {s : State}
    (he : exec i s = .next (rrNext f a b s)) :
    CompletesOrRangeFault 1 i s (RegResult a (f (s.reg a) (s.reg b)) 2 s) :=
  completes_of_writeNext he

/-- Settles O16: one register write of the bitwise result, whose bits the library gives. -/
theorem logicResult : Obligations.LogicResult := fun a b s =>
  ⟨decodes_of_formRR decode_and a b, decodes_of_formRR decode_or a b, decodes_of_formRR decode_xor a b,
    ⟨s.reg a &&& s.reg b, fun _ => BitVec.getLsbD_and, completes_of_rrNext rfl⟩,
    ⟨s.reg a ||| s.reg b, fun _ => BitVec.getLsbD_or, completes_of_rrNext rfl⟩,
    ⟨s.reg a ^^^ s.reg b, fun _ => BitVec.getLsbD_xor, completes_of_rrNext rfl⟩⟩

/-! ### Shifted bytes as products and quotients -/

theorem toNat_shiftLeft_byte (v : Byte) (k : Nat) : (v <<< k).toNat = v.toNat * 2 ^ k % 256 := by
  rw [BitVec.toNat_shiftLeft, Nat.shiftLeft_eq]

theorem toNat_shiftRight_byte (v : Byte) (k : Nat) : (v >>> k).toNat = v.toNat / 2 ^ k := by
  rw [BitVec.toNat_ushiftRight, Nat.shiftRight_eq_div_pow]

/-- A byte is determined by its number. -/
theorem eq_ofNat_of_toNat_eq {v : Byte} {n : Nat} (h : v.toNat = n) : v = BitVec.ofNat 8 n := by
  rw [← h, BitVec.ofNat_toNat, BitVec.setWidth_eq]

theorem shlValue_eq_ofNat (v w : Byte) : shlValue v w = BitVec.ofNat 8 (v.toNat * 2 ^ (w.toNat % 8) % 256) :=
  eq_ofNat_of_toNat_eq (toNat_shiftLeft_byte v _)

theorem shrValue_eq_ofNat (v w : Byte) : shrValue v w = BitVec.ofNat 8 (v.toNat / 2 ^ (w.toNat % 8)) :=
  eq_ofNat_of_toNat_eq (toNat_shiftRight_byte v _)

theorem rolValue_eq_ofNat (v w : Byte) : rolValue v w =
    BitVec.ofNat 8 ((v.toNat * 2 ^ (w.toNat % 8) % 256) ||| (v.toNat / 2 ^ (8 - w.toNat % 8))) := by
  apply eq_ofNat_of_toNat_eq
  rw [rolValue, BitVec.toNat_or, toNat_shiftLeft_byte, toNat_shiftRight_byte, shiftAmount]

theorem rorValue_eq_ofNat (v w : Byte) : rorValue v w =
    BitVec.ofNat 8 ((v.toNat / 2 ^ (w.toNat % 8)) ||| (v.toNat * 2 ^ (8 - w.toNat % 8) % 256)) := by
  apply eq_ofNat_of_toNat_eq
  rw [rorValue, BitVec.toNat_or, toNat_shiftLeft_byte, toNat_shiftRight_byte, shiftAmount]

/-! ### The shifts (R133, R134) -/

theorem exec_shr (a b : Reg) (s : State) :
    exec (.shr a b) s = .next (rrNext (shrModeValue s.params.shr) a b s) := rfl

/-- Settles O17: one register write of the shifted byte; opcode 0x51 is either shift, as P_SHR says. -/
theorem shiftResult : Obligations.ShiftResult := by
  intro a b s
  rw [← shlValue_eq_ofNat, ← shrValue_eq_ofNat]
  refine ⟨decodes_of_formRR decode_shl a b, decodes_of_formRR decode_shr a b, completes_of_rrNext rfl,
    fun hleft => completes_of_rrNext ?_, fun hright => completes_of_rrNext ?_⟩
  · rw [exec_shr, hleft]; rfl
  · rw [exec_shr, hright]; rfl

/-! ### The rotates (R135, R136) -/

section
variable {f : Byte → Byte → Byte} {i : Instr} {a b : Reg} {s : State}

/-- Where the rule fixes the rotate's value, a rotate is a register write of it. -/
theorem rotateNext_of_fixed (h : s.params.rot = .nibble ∨ a = 0) (f : Byte → Byte → Byte) (b : Reg) :
    rotateNext f a b s = rrNext f a b s := by
  have hnot : ¬(s.params.rot = .draw ∧ a ≠ 0) := by
    rintro ⟨hdraw, ha⟩
    rcases h with hnibble | hzero
    · rw [hnibble] at hdraw; cases hdraw
    · exact ha hzero
  rw [rotateNext, if_neg hnot, rrNext]

theorem completes_of_rotateNext_fixed (he : exec i s = .next (rotateNext f a b s))
    (h : s.params.rot = .nibble ∨ a = 0) :
    CompletesOrRangeFault 1 i s (RegResult a (f (s.reg a) (s.reg b)) 2 s) :=
  completes_of_rrNext (he.trans (congrArg Host.Outcome.next (rotateNext_of_fixed h f b)))

/-- Where the rule leaves the value open, a rotate is a register write of a free byte in a state with one more draw. -/
theorem completes_of_rotateNext_draw (he : exec i s = .next (rotateNext f a b s)) (hdraw : s.params.rot = .draw)
    (ha : a ≠ 0) : CompletesOrRangeFault 1 i s fun t => ∃ (v : Byte) (d : Nat), RegResult a v 2 { s with draws := d } t := by
  rw [rotateNext, if_pos ⟨hdraw, ha⟩] at he
  exact completesOrRangeFault_of_exec he ⟨_, _, regResult_writeAdvance a _ 2 { s with draws := s.draws + 1 }⟩

end

/-- Settles O18: the two cases of the rotates, by whether the rule fixes the value. -/
theorem rotateResult : Obligations.RotateResult := by
  intro a b s
  rw [← rolValue_eq_ofNat, ← rorValue_eq_ofNat]
  refine ⟨decodes_of_formRR decode_rol a b, decodes_of_formRR decode_ror a b,
    fun h => ⟨completes_of_rotateNext_fixed rfl h, completes_of_rotateNext_fixed rfl h⟩, fun hdraw ha i hi => ?_⟩
  simp only [List.mem_cons, List.not_mem_nil, or_false] at hi
  rcases hi with rfl | rfl
  · exact completes_of_rotateNext_draw rfl hdraw ha
  · exact completes_of_rotateNext_draw rfl hdraw ha

/-- Rotating right by an amount is rotating left by the rest of the eight bits. -/
theorem rorValue_eq_rolValue {w w' : Byte} (v : Byte) (h : shiftAmount w' = 8 - shiftAmount w) :
    rorValue v w = rolValue v w' := by
  have hback : 8 - shiftAmount w' = shiftAmount w := by
    have hlt : shiftAmount w < 8 := Nat.mod_lt _ (by decide)
    omega
  rw [rorValue, rolValue, hback, h, BitVec.or_comm]

/-- Settles O19: under P_ROT = nibble both rotates write their values, which are equal. -/
theorem rorIsRolOfTheRest : Obligations.RorIsRolOfTheRest := by
  intro a b c s t u hrot _ _ hamount ht hu
  have hval : rorValue (s.reg a) (s.reg b) = rolValue (s.reg a) (s.reg c) := rorValue_eq_rolValue _ hamount
  cases ht
  cases hu
  rw [rotateNext_of_fixed (.inl hrot), rotateNext_of_fixed (.inl hrot), rrNext, rrNext, hval]

end Sys2Proof.Machine
end

section
/-! SUPPORT. The jumps, conditional jumps and skips (42_branch.md), and the statements about them. -/

namespace Sys2Proof.Machine

/-- Settles O20: the pc is set to the target, and nothing else is. -/
theorem jmpResult : Obligations.JmpResult := fun target s =>
  ⟨fun rest => decode_jmp (target :: rest), completesOrRangeFault_of_exec rfl (jumpResult_setPc target s)⟩

/-! ### The relations and tests, on the unsigned numbers (R152 to R159) -/

theorem condE_eq_decide_toNat (u v : Byte) : condE u v = decide (u.toNat = v.toNat) :=
  decide_eq_decide.2 BitVec.toNat_inj.symm

theorem condNe_eq_decide_toNat (u v : Byte) : condNe u v = decide (u.toNat ≠ v.toNat) :=
  decide_eq_decide.2 BitVec.toNat_inj.not.symm

theorem condZ_eq_decide_toNat (u : Byte) : condZ u = decide (u.toNat = 0) := condE_eq_decide_toNat u 0

theorem condNZ_eq_decide_toNat (u : Byte) : condNZ u = decide (u.toNat ≠ 0) := condNe_eq_decide_toNat u 0

/-! ### The conditional transfers -/

/-- The result of a conditional transfer of length `len`: to `target` where `holds`, else past its bytes (P_NOT_TAKEN = length)
or one byte less (literal), R151 and R158. -/
def BranchResult (holds : Bool) (target len : Byte) (s t : State) : Prop :=
  (holds = true → JumpResult target s t) ∧
  (holds = false → s.params.notTaken = .length → JumpResult (s.pc + len) s t) ∧
  (holds = false → s.params.notTaken = .literal → JumpResult (s.pc + (len - 1)) s t)

theorem notTakenPc_of_length {s : State} (h : s.params.notTaken = .length) (len : Byte) :
    notTakenPc len s = s.pc + len := by
  rw [notTakenPc, h]

theorem notTakenPc_of_literal {s : State} (h : s.params.notTaken = .literal) (len : Byte) :
    notTakenPc len s = s.pc + (len - 1) := by
  rw [notTakenPc, h]

theorem branchResult_setPc (holds : Bool) (target len : Byte) (s : State) :
    BranchResult holds target len s (s.setPc (if holds then target else notTakenPc len s)) := by
  refine ⟨fun h => ?_, fun h hlen => ?_, fun h hlit => ?_⟩
  · rw [if_pos h]
    exact jumpResult_setPc _ s
  · rw [if_neg (by simp [h]), notTakenPc_of_length hlen]
    exact jumpResult_setPc _ s
  · rw [if_neg (by simp [h]), notTakenPc_of_literal hlit]
    exact jumpResult_setPc _ s

theorem completes_of_condJumpNext {i : Instr} {c : Byte → Byte → Bool} {a b : Reg} {target : Byte} {s : State}
    {holds : Bool} (he : exec i s = .next (condJumpNext c a b target s)) (hc : c (s.reg a) (s.reg b) = holds) :
    CompletesOrRangeFault 2 i s (BranchResult holds target 3 s) :=
  completesOrRangeFault_of_exec he (hc ▸ branchResult_setPc _ target 3 s)

/-- The taken target of a skip, in wrapped integer arithmetic (R158). -/
theorem pc_add_literal_add_two (v : Byte) (n : Nibble) :
    v + literal n + 2 = BitVec.ofNat 8 ((v.toNat + n.toNat + 2) % 256) := by
  apply eq_ofNat_of_toNat_eq
  rw [BitVec.toNat_add, add_literal, BitVec.toNat_ofNat]
  simp

theorem completes_of_skipNext {i : Instr} {c : Byte → Bool} {a : Reg} {n : Nibble} {s : State} {holds : Bool}
    (he : exec i s = .next (skipNext c a n s)) (hc : c (s.reg a) = holds) :
    CompletesOrRangeFault 1 i s
      (BranchResult holds (BitVec.ofNat 8 ((s.pc.toNat + n.toNat + 2) % 256)) 2 s) := by
  rw [← pc_add_literal_add_two]
  exact completesOrRangeFault_of_exec he (hc ▸ branchResult_setPc _ _ 2 s)

/-- Settles O21: the six jumps are one conditional transfer of length 3, each with its own relation. -/
theorem condJumpResult : Obligations.CondJumpResult := by
  intro a b target s c hmem
  simp only [List.mem_cons, List.not_mem_nil, or_false] at hmem
  rcases hmem with rfl | rfl | rfl | rfl | rfl | rfl
  · exact ⟨decodes_of_formRRI decode_jl a b target, completes_of_condJumpNext rfl rfl⟩
  · exact ⟨decodes_of_formRRI decode_jle a b target, completes_of_condJumpNext rfl rfl⟩
  · exact ⟨decodes_of_formRRI decode_je a b target, completes_of_condJumpNext rfl (condE_eq_decide_toNat _ _)⟩
  · exact ⟨decodes_of_formRRI decode_jge a b target, completes_of_condJumpNext rfl rfl⟩
  · exact ⟨decodes_of_formRRI decode_jg a b target, completes_of_condJumpNext rfl rfl⟩
  · exact ⟨decodes_of_formRRI decode_jne a b target, completes_of_condJumpNext rfl (condNe_eq_decide_toNat _ _)⟩

/-- Settles O22: the two skips are one conditional transfer of length 2, each with its own test. -/
theorem skipResult : Obligations.SkipResult := by
  intro a n s c hmem
  simp only [List.mem_cons, List.not_mem_nil, or_false] at hmem
  rcases hmem with rfl | rfl
  · exact ⟨decodes_of_formRR decode_skipIfNZ a n, completes_of_skipNext rfl (condNZ_eq_decide_toNat _)⟩
  · exact ⟨decodes_of_formRR decode_skipIfZ a n, completes_of_skipNext rfl (condZ_eq_decide_toNat _)⟩

end Sys2Proof.Machine
end

section
/-! SUPPORT. push and pop (43_stack.md), and the statements about them. -/

namespace Sys2Proof.Machine

/-! ### Frames of two operations, one after the other -/

section
variable {ex ex' : List Reg} {s t u : State}

theorem regsSame_mono (h : RegsSame ex s t) (hsub : ex ⊆ ex') : RegsSame ex' s t :=
  fun r hr => h r fun hmem => hr (hsub hmem)

theorem regsSame_trans (h : RegsSame ex s t) (h' : RegsSame ex t u) : RegsSame ex s u :=
  fun r hr => (h' r hr).trans (h r hr)

theorem restSame_trans (h : RestSame s t) (h' : RestSame t u) : RestSame s u := by
  unfold RestSame at *
  rw [h', h]

end

/-! ### push (R170) -/

section
variable {s t u : State}

/-- The state that a push of register `d` with room leaves. -/
def State.pushed (d : Reg) (s : State) : State := (pushByte (s.reg d) s).setPc (s.pc + 1)

theorem exec_push_of_full (d : Reg) (h : s.sp = 0x00) : exec (.push d) s = .next (raiseFault .stackOverflow s) :=
  congrArg Host.Outcome.next (withPush_full _ h)

theorem pc_pushByte (v : Byte) (s : State) : (pushByte v s).pc = s.pc := pc_setReg_ne s _ (by decide)

theorem exec_push_of_room (d : Reg) (h : s.sp ≠ 0x00) : exec (.push d) s = .next (s.pushed d) := by
  refine congrArg Host.Outcome.next ((withPush_room _ h).trans ?_)
  rw [advance_false, pc_pushByte, State.pushed]

/-- `t` has the registers, the events and every other field outside memory that `k` pushes with room leave of `s`. -/
def PushFrame (k : Nat) (s t : State) : Prop :=
  t.sp = s.sp - BitVec.ofNat 8 k ∧ t.pc = s.pc + BitVec.ofNat 8 k ∧ RegsSame [spReg, pcReg] s t ∧ RestSame s t ∧
  t.events = s.events

theorem pushFrame_zero (s : State) : PushFrame 0 s s :=
  ⟨(BitVec.sub_zero _).symm, (BitVec.add_zero _).symm, fun _ _ => rfl, rfl, rfl⟩

theorem pushFrame_pushed (d : Reg) (s : State) : PushFrame 1 s (s.pushed d) := by
  refine ⟨?_, pc_setPc _ _, fun r hr => ?_, rfl, rfl⟩
  · exact (sp_setPc _ _).trans (sp_setReg_sp s _)
  · simp only [List.mem_cons, List.not_mem_nil, or_false, not_or] at hr
    obtain ⟨hsp, hpc⟩ := hr
    rw [State.pushed, reg_setPc, if_neg hpc, pushByte, store_reg, reg_setReg_ne s _ hsp]

theorem pushFrame_add {j k : Nat} (h : PushFrame j s t) (h' : PushFrame k t u) : PushFrame (j + k) s u := by
  obtain ⟨hsp, hpc, hregs, hrest, hev⟩ := h
  obtain ⟨hsp', hpc', hregs', hrest', hev'⟩ := h'
  refine ⟨?_, ?_, regsSame_trans hregs hregs', restSame_trans hrest hrest', hev'.trans hev⟩
  · rw [hsp', hsp, BitVec.ofNat_add, sub_add_eq_sub_sub]
  · rw [hpc', hpc, BitVec.ofNat_add, BitVec.add_assoc]

end

/-- Settles O23: the stored byte and memory are those of `pushByte_spec`, the rest is the frame of one push. -/
theorem pushResult : Obligations.PushResult := by
  refine fun d s hw => ⟨fun rest => decode_push d rest,
    fun hfull => ⟨_, exec_push_of_full d hfull, faultedFrom_raiseFault _ s⟩,
    fun hroom => ⟨_, exec_push_of_room d hroom, ?_⟩⟩
  obtain ⟨-, hstored, hmem, -⟩ := pushByte_spec hw (s.reg d)
  obtain ⟨hsp, hpc, hregs, hrest, hev⟩ := pushFrame_pushed d s
  exact ⟨hsp, hstored, hmem, hpc, hregs, hev, hrest⟩

/-! ### Pushes in a row (R170, 95_test_vectors.md S3) -/

theorem execTimes_succ {i : Instr} {k : Nat} {s t u : State} (ht : execTimes i k s = some t) (hu : exec i t = .next u) :
    execTimes i (k + 1) s = some u := by
  simp only [execTimes, ht, hu]

/-- As many pushes as sp has room for succeed. -/
theorem execTimes_push_of_room (d : Reg) {k : Nat} {s : State} (hk : k ≤ s.sp.toNat) :
    ∃ t, execTimes (.push d) k s = some t ∧ PushFrame k s t := by
  induction k with
  | zero => exact ⟨s, rfl, pushFrame_zero s⟩
  | succ k ih =>
    obtain ⟨t, ht, hframe⟩ := ih (by omega)
    have hroom : t.sp ≠ 0x00 := by
      obtain ⟨hsp, -⟩ := hframe
      rw [hsp]
      bv_omega
    exact ⟨t.pushed d, execTimes_succ ht (exec_push_of_room d hroom), pushFrame_add hframe (pushFrame_pushed d t)⟩

/-- Settles O28: sp = 0xFF has room for 255 pushes, which leave sp = 0x00. -/
theorem pushesUntilFull : Obligations.PushesUntilFull := by
  intro d s hsp
  have hpushes : ∀ k, k ≤ 255 → ∃ t, execTimes (.push d) k s = some t ∧ PushFrame k s t :=
    fun k hk => execTimes_push_of_room d (by rwa [hsp])
  constructor
  · intro k hk
    rw [← hsp]
    exact hpushes k hk
  · intro t ht
    obtain ⟨t', ht', hframe⟩ := hpushes 255 (Nat.le_refl _)
    obtain rfl : t = t' := Option.some.inj (ht.symm.trans ht')
    obtain ⟨hsp', -⟩ := hframe
    have hfull : t.sp = 0x00 := by rw [hsp', hsp]; rfl
    exact ⟨_, exec_push_of_full d hfull, faultedFrom_raiseFault _ t⟩

/-! ### pop (R171) -/

section
variable {s : State}

theorem exec_pop_of_empty (d : Reg) (h : s.sp = 0xFF) : exec (.pop d) s = .next (raiseFault .stackUnderflow s) :=
  congrArg Host.Outcome.next (withPop_empty _ h)

theorem exec_pop_pc (h : s.sp ≠ 0xFF) : exec (.pop pcReg) s = .next ((popSp s).setPc (s.load s.sp)) :=
  congrArg Host.Outcome.next (withPop_nonempty _ h)

theorem exec_pop_of_ne {d : Reg} (hd : d ≠ pcReg) (h : s.sp ≠ 0xFF) :
    exec (.pop d) s = .next (writeAdvance d (s.load s.sp) 1 (popSp s)) :=
  congrArg Host.Outcome.next ((withPop_nonempty _ h).trans (if_neg hd))

theorem pc_popSp (s : State) : (popSp s).pc = s.pc := pc_setReg_ne s _ (by decide)

end

/-- Settles O24: sp + 1, then a control transfer into r15 or the register write of a sequential instruction. -/
theorem popResult : Obligations.PopResult := by
  refine fun d s => ⟨fun rest => decode_pop d rest,
    fun hempty => ⟨_, exec_pop_of_empty d hempty, faultedFrom_raiseFault _ s⟩, fun h => ?_⟩
  obtain ⟨hsp, hregs, -, -, hrest⟩ := popSp_spec s
  by_cases hd : d = pcReg
  · subst hd
    obtain ⟨hpc, hregs', hmem, hev, hrest'⟩ := jumpResult_setPc (s.load s.sp) (popSp s)
    exact ⟨_, exec_pop_pc h, hpc, fun hne => absurd rfl hne, fun _ => (sp_setPc _ _).trans hsp,
      regsSame_trans (regsSame_mono hregs (by simp)) (regsSame_mono hregs' (by simp)), hmem, hev,
      restSame_trans hrest hrest'⟩
  · obtain ⟨⟨hwritten, -, -, hregs'⟩, hmem, hev, hrest'⟩ := regResult_writeAdvance d (s.load s.sp) 1 (popSp s)
    obtain ⟨hreg, hpc⟩ := hwritten hd
    refine ⟨_, exec_pop_of_ne hd h, hreg, fun _ => by rw [hpc, pc_popSp], fun hne => ?_,
      regsSame_trans (regsSame_mono hregs (by simp)) (regsSame_mono hregs' (by simp)), hmem, hev,
      restSame_trans hrest hrest'⟩
    exact (reg_writeAdvance d _ 1 (popSp s) (by decide)).trans ((if_neg hne.symm).trans hsp)

end Sys2Proof.Machine
end

section
/-! SUPPORT. The add/sub family (44_add_sub.md), and the statements about it. -/

namespace Sys2Proof.Machine

/-! ### Execution with ARITH given (R180) -/

section
variable (e : ArithEntry) (op : ArithOp) (ops : List Byte) {s : State}

/-- The state that an entry of ARITH leaves where its used operand bytes are in range. -/
def arithCompleted (s : State) : State :=
  advance (arithLength e) false (arithApplyAll s (arithWrites e ops s))

/-- No write goes to r15, so the pc keeps A until the advance. -/
theorem pc_arithCompleted (hw : s.mem.wf = true) : (arithCompleted e ops s).pc = s.pc + arithLength e := by
  obtain ⟨hreg, -⟩ := arithApplyAll_spec (arithWrites e ops s) hw
  have hpc : (arithApplyAll s (arithWrites e ops s)).pc = s.pc := (hreg pcReg).trans (lastRegWrite_pc _ _)
  rw [arithCompleted, advance_false, pc_setPc, hpc]

theorem reg_arithCompleted (hw : s.mem.wf = true) {r : Reg} (hr : r ≠ pcReg) :
    (arithCompleted e ops s).reg r = lastRegWrite r (arithWrites e ops s) (s.reg r) := by
  obtain ⟨hreg, -⟩ := arithApplyAll_spec (arithWrites e ops s) hw
  rw [arithCompleted, reg_advance _ _ _ hr, hreg]

theorem load_arithCompleted (hw : s.mem.wf = true) (a : Byte) :
    (arithCompleted e ops s).load a = lastMemWrite a (arithWrites e ops s) (s.load a) := by
  obtain ⟨-, hload⟩ := arithApplyAll_spec (arithWrites e ops s) hw
  rw [arithCompleted, advance_false, setPc_load, hload]

/-- Only registers and memory change. -/
theorem arithCompleted_eq (s : State) : arithCompleted e ops s =
    { s with regs := (arithCompleted e ops s).regs, mem := (arithCompleted e ops s).mem } := by
  rw [arithCompleted, advance_false]
  exact congrArg (State.setPc · _) (arithApplyAll_rest (arithWrites e ops s) s)

theorem exec_arithInstr_of_absent (h : s.params.arithGiven = false) :
    exec (arithInstr op ops) s = .refused .arithUnspecified := by
  rw [exec_arithInstr, arith, h, if_neg Bool.false_ne_true]

theorem completes_of_arithInstr (h : s.params.arithGiven = true) :
    CompletesOrRangeFault (Config.arith op).nOps.val (arithInstr op ops) s
      (· = arithCompleted (Config.arith op) ops s) := by
  refine completesOrRangeFault_of_exec ?_ rfl
  rw [exec_arithInstr, arith, if_pos h, arithNext, arithCompleted]

end

/-- Settles O29: ARITH absent is tested before the used operand bytes are. -/
theorem arithRefusalAndRangeFault : Obligations.ArithRefusalAndRangeFault := by
  intro op n1 n2 n3 s
  refine ⟨fun rest => decode_arithOpcode op _, exec_arithInstr_of_absent op _, fun hgiven hpast => ?_⟩
  obtain ⟨hfaults, -⟩ := completes_of_arithInstr op [n1, n2, n3] hgiven
  exact hfaults hpast

/-- Settles O30: with the used operand bytes in range the next state is `arithCompleted`. -/
theorem arithResult : Obligations.ArithResult := by
  intro op ops s _ hw hgiven hrange
  obtain ⟨-, hcompletes⟩ := completes_of_arithInstr op ops hgiven
  obtain ⟨_, hexec, rfl⟩ := hcompletes hrange
  have heq := arithCompleted_eq (Config.arith op) ops s
  refine ⟨_, hexec, pc_arithCompleted _ ops hw, fun r hr => reg_arithCompleted _ ops hw hr, load_arithCompleted _ ops hw,
    ?_, ?_⟩
  · rw [heq]
  · unfold RestSame
    rw [heq]

/-! ### The values written (R180 (a)) -/

theorem add_eq_ofNat (u w : Byte) : u + w = BitVec.ofNat 8 ((u.toNat + w.toNat) % 256) :=
  eq_ofNat_of_toNat_eq (BitVec.toNat_add u w)

theorem sub_eq_ofInt (u w : Byte) : u - w = BitVec.ofInt 8 (((u.toNat : Int) - w.toNat) % 256) := by
  have hofInt := toNat_ofInt_byte (((u.toNat : Int) - w.toNat) % 256)
  have hw := w.isLt
  apply BitVec.eq_of_toNat_eq
  rw [BitVec.toNat_sub]
  omega

section
variable {n : Nat} {ops : List Byte}

/-- Where enough operand bytes are latched, a used one is read as it stands. -/
theorem getElem?_eq_arithOperand (h : n ≤ ops.length) (k : Fin n) : ops[k.val]? = some (arithOperand ops k) := by
  have hk : k.val < ops.length := by omega
  rw [arithOperand, List.getD_eq_getElem?_getD, List.getElem?_eq_getElem hk, Option.getD_some]

/-- Each source of R180 (a) is an atom. -/
theorem arithAtom_arithSrc (h : n ≤ ops.length) (s : State) (src : ArithSrc n) : ArithAtom n ops s (arithSrc s ops src) := by
  cases src with
  | reg i => exact .inl ⟨i, rfl⟩
  | mem addr => exact .inr (.inl ⟨addr, rfl⟩)
  | byte k => exact .inr (.inr ⟨k, _, k.isLt, getElem?_eq_arithOperand h k, .inl rfl⟩)
  | high k => exact .inr (.inr ⟨k, _, k.isLt, getElem?_eq_arithOperand h k, .inr (.inl rfl)⟩)
  | low k => exact .inr (.inr ⟨k, _, k.isLt, getElem?_eq_arithOperand h k, .inr (.inr rfl)⟩)

theorem arithValue_cases (s : State) (ops : List Byte) (w : ArithWrite n) :
    arithValue s ops w = arithSrc s ops w.u + arithSrc s ops w.w ∨
    arithValue s ops w = arithSrc s ops w.u - arithSrc s ops w.w := by
  unfold arithValue
  split
  · exact .inr rfl
  · exact .inl rfl

end

/-- Settles O31: both sources of a write are atoms, since an entry uses at most the three latched bytes. -/
theorem arithValuesAreSumsOrDifferences : Obligations.ArithValuesAreSumsOrDifferences := by
  intro e ops s hlen d v hmem
  have hops : e.nOps.val ≤ ops.length := by omega
  obtain ⟨w, -, hw⟩ := List.mem_map.1 hmem
  obtain ⟨-, rfl⟩ := Prod.mk.inj hw
  refine ⟨_, _, arithAtom_arithSrc hops s w.u, arithAtom_arithSrc hops s w.w, ?_⟩
  rw [← add_eq_ofNat, ← sub_eq_ofInt]
  exact arithValue_cases s ops w

end Sys2Proof.Machine
end

section
/-! SUPPORT. call and ret (45_call_return.md), and the statements about them. -/

namespace Sys2Proof.Machine

/-! ### call (R200) -/

section
variable {target : Byte} {s : State}

/-- The state that a call with room on the stack leaves. -/
def State.called (target : Byte) (s : State) : State := (pushByte (s.pc + 2) s).setPc target

theorem exec_call_of_pastTop (h : PastTop 1 s) : exec (.call target) s = .next (raiseFault .addressRange s) :=
  congrArg Host.Outcome.next (withOperands_pastTop _ h)

theorem exec_call_of_full (hr : ¬ PastTop 1 s) (h : s.sp = 0x00) :
    exec (.call target) s = .next (raiseFault .stackOverflow s) :=
  congrArg Host.Outcome.next ((withOperands_inRange _ hr).trans (withPush_full _ h))

theorem exec_call_of_room (hr : ¬ PastTop 1 s) (h : s.sp ≠ 0x00) : exec (.call target) s = .next (s.called target) :=
  congrArg Host.Outcome.next ((withOperands_inRange _ hr).trans (withPush_room _ h))

/-- A call is a push of the return address and then a control transfer, each with its frame. -/
theorem called_spec (hw : s.mem.wf = true) (target : Byte) :
    (s.called target).pc = target ∧ (s.called target).sp = s.sp - 1 ∧
    (s.called target).load (s.sp - 1) = s.pc + 2 ∧ MemSameExcept (s.sp - 1) s (s.called target) ∧
    RegsSame [spReg, pcReg] s (s.called target) ∧ (s.called target).events = s.events ∧
    RestSame s (s.called target) := by
  obtain ⟨hsp, hstored, hmem, hregs, hev, hrest⟩ := pushByte_spec hw (s.pc + 2)
  obtain ⟨hpc, hregs', -, hev', hrest'⟩ := jumpResult_setPc target (pushByte (s.pc + 2) s)
  exact ⟨hpc, (sp_setPc _ _).trans hsp, hstored, hmem,
    regsSame_trans (regsSame_mono hregs (by simp)) (regsSame_mono hregs' (by simp)),
    hev'.trans hev, restSame_trans hrest hrest'⟩

end

/-- Settles O25: the operand byte is checked before the stack is, and the effect is `called_spec`. -/
theorem callResult : Obligations.CallResult := by
  intro target s hw
  exact ⟨fun rest => decode_call (target :: rest),
    fun hpast => ⟨_, exec_call_of_pastTop hpast, faultedFrom_raiseFault _ s⟩,
    fun hr hfull => ⟨_, exec_call_of_full hr hfull, faultedFrom_raiseFault _ s⟩,
    fun hr hroom => ⟨_, exec_call_of_room hr hroom, called_spec hw target⟩⟩

/-! ### ret (R201) -/

section
variable {s : State}

/-- The state that a ret with a byte to pop leaves. -/
def State.returned (s : State) : State := (popSp s).setPc (s.load s.sp)

/-- pop into r15 takes the branch of the control transfer. -/
theorem exec_ret_eq_exec_pop_pc (s : State) : exec .ret s = exec (.pop pcReg) s :=
  congrArg (fun body => Host.Outcome.next (withPop s body)) (if_pos rfl).symm

theorem exec_ret_of_empty (h : s.sp = 0xFF) : exec .ret s = .next (raiseFault .stackUnderflow s) :=
  (exec_ret_eq_exec_pop_pc s).trans (exec_pop_of_empty pcReg h)

theorem exec_ret_of_nonempty (h : s.sp ≠ 0xFF) : exec .ret s = .next s.returned :=
  (exec_ret_eq_exec_pop_pc s).trans (exec_pop_pc h)

/-- A ret raises sp and then is a control transfer, each with its frame. -/
theorem returned_spec (s : State) :
    s.returned.pc = s.load s.sp ∧ s.returned.sp = s.sp + 1 ∧ RegsSame [spReg, pcReg] s s.returned ∧
    MemSame s s.returned ∧ s.returned.events = s.events ∧ RestSame s s.returned := by
  obtain ⟨hsp, hregs, hmem, hev, hrest⟩ := popSp_spec s
  obtain ⟨hpc, hregs', hmem', hev', hrest'⟩ := jumpResult_setPc (s.load s.sp) (popSp s)
  exact ⟨hpc, (sp_setPc _ _).trans hsp,
    regsSame_trans (regsSame_mono hregs (by simp)) (regsSame_mono hregs' (by simp)),
    memSame_of_mem_eq hmem, hev'.trans hev, restSame_trans hrest hrest'⟩

end

/-- Settles O26: the two cases of the pop into r15, with the effect of `returned_spec`. -/
theorem retResult : Obligations.RetResult := by
  intro s
  exact ⟨decode_ret, fun hempty => ⟨_, exec_ret_of_empty hempty, faultedFrom_raiseFault _ s⟩,
    fun h => ⟨_, exec_ret_of_nonempty h, returned_spec s⟩, exec_ret_eq_exec_pop_pc s⟩

/-! ### A call and then a ret (95_test_vectors.md S4) -/

/-- Registers that are the same outside sp and pc, and the same sp, are the same outside pc. -/
theorem regsSame_pc_of_sp_eq {s t : State} (hregs : RegsSame [spReg, pcReg] s t) (hsp : t.sp = s.sp) :
    RegsSame [pcReg] s t := by
  intro r hr
  by_cases hr' : r = spReg
  · subst hr'
    exact hsp
  · exact hregs r (by simpa [hr'] using hr)

/-- Settles O27: the call lowers sp to the return address, which is therefore what the ret pops, and the ret raises sp
back. -/
theorem callThenRet : Obligations.CallThenRet := by
  intro target s hw hr hroom
  obtain ⟨hpc, hsp, hstored, hmem, hregs, hev, hrest⟩ := called_spec hw target
  obtain ⟨hpc', hsp', hregs', hmem', hev', hrest'⟩ := returned_spec (s.called target)
  have hnonempty : (s.called target).sp ≠ 0xFF := by
    rw [hsp]
    bv_omega
  have hback : (s.called target).returned.sp = s.sp := by rw [hsp', hsp, BitVec.sub_add_cancel]
  have hto : (s.called target).returned.pc = s.pc + 2 := by rw [hpc', hsp, hstored]
  exact ⟨_, _, exec_call_of_room hr hroom, hpc, exec_ret_of_nonempty hnonempty, hto,
    regsSame_pc_of_sp_eq (regsSame_trans hregs hregs') hback, fun a ha => (hmem' a).trans (hmem a ha),
    hev'.trans hev, restSame_trans hrest hrest'⟩

/-! ### The sentinel (90_conflicts.md C2) -/

/-- Run entry leaves sp at the sentinel, whatever memory holds. -/
theorem sp_start (s : State) : (start s).sp = 0xFF := sp_setReg_sp _ _

/-- A step that takes a start and does not stop is run entry. -/
theorem eq_start_of_step {s t : State} {rest : List HostAction} (hm : HostMayAct s) (hh : s.host = .start :: rest)
    (ht : step s = .next t) : t = start { s with host := rest } := by
  rw [step_hostAct hm hh, hostAct] at ht
  split at ht
  · cases ht
  · exact (Host.Outcome.next.inj ht).symm

/-- Settles O58: sp = 0xFF after run entry, where ret and every pop find the stack empty. -/
theorem sentinelCannotBePopped : Obligations.SentinelCannotBePopped := by
  intro s t rest hm hh ht
  have hempty : t.sp = 0xFF := by
    rw [eq_start_of_step hm hh ht]
    exact sp_start _
  exact ⟨⟨_, exec_ret_of_empty hempty, faultedFrom_raiseFault _ t⟩,
    fun d => ⟨_, exec_pop_of_empty d hempty, faultedFrom_raiseFault _ t⟩⟩

end Sys2Proof.Machine
end

section
/-! SUPPORT. No-op, output, diagnostics and exit (46_system_io.md), and the statements about them. -/

namespace Sys2Proof.Machine

/-! ### The one-byte instructions that send events -/

theorem sends_of_exec {i : Instr} {es : List Event} {s : State} (he : exec i s = .next (sendNext es s)) :
    ∃ t, exec i s = .next t ∧ SendResult es 1 s t :=
  ⟨_, he, sendResult_advance es 1 s⟩

theorem exec_nop (s : State) : exec .nop s = .next (sendNext [] s) := by
  rw [sendNext, emitAll_nil]
  rfl

/-- Settles O32: each sends its events, of which nop has none, and advances. -/
theorem sendingResult : Obligations.SendingResult := by
  intro s c hmem
  simp only [List.mem_cons, List.not_mem_nil, or_false] at hmem
  rcases hmem with rfl | rfl | rfl | rfl
  · exact ⟨decode_nop, sends_of_exec (exec_nop s)⟩
  · exact ⟨decode_putchar, sends_of_exec rfl⟩
  · exact ⟨decode_dumpReg0, sends_of_exec rfl⟩
  · exact ⟨decode_dumpReg1, sends_of_exec rfl⟩

/-- Settles O37: each sends its snapshot, which has the cells and registers that R37 lists, and advances. -/
theorem snapshotResult : Obligations.SnapshotResult :=
  ⟨decode_dumpMem, decode_dumpRange, decode_fileDump, fun s =>
    ⟨⟨_, _, rfl, memSnapshot_allMem s, sendResult_advance _ 1 s⟩,
      ⟨_, _, rfl, rangeSnapshot_rangeMem _ _ s, sendResult_advance _ 1 s⟩,
      ⟨_, _, _, rfl, memSnapshot_allMem s, regSnapshot_allRegs s, sendResult_advance _ 1 s⟩⟩⟩

/-- The low nibble is the byte cut to four bits. -/
theorem lo_eq_setWidth (b : Byte) : lo b = b.setWidth 4 := by
  revert b; decide

theorem dumpRegR1Value_of_lt {s : State} (h : (s.reg 1).toNat < 16) :
    dumpRegR1Value s = s.reg ((s.reg 1).setWidth 4) := by
  rw [dumpRegR1Value, if_pos h, lo_eq_setWidth]

/-- Settles O38: the reported value is `dumpRegR1Value`. -/
theorem dumpRegR1Result : Obligations.DumpRegR1Result :=
  ⟨decode_dumpRegR1, fun s => ⟨_, _, rfl, sendResult_advance _ 1 s, dumpRegR1Value_of_lt⟩⟩

/-! ### genericDump (R219, R222) -/

section
variable {id : Byte} (s : State)

theorem dumpEvents_of_lt (h : id.toNat < 0x10) : dumpEvents id s = [.dumpReg id (s.reg (id.setWidth 4))] := by
  rw [dumpEvents, if_pos h, lo_eq_setWidth]

/-- Between the register indexes and the three last ids the dispatch has no row. -/
theorem dumpEvents_of_no_row (hlow : 0x10 ≤ id.toNat) (hhigh : id.toNat ≤ 0xFC) : dumpEvents id s = [] := by
  have hne : ∀ b : Byte, 0xFC < b.toNat → id ≠ b := fun b hb e => by rw [e] at hhigh; omega
  rw [dumpEvents, if_neg (by omega), if_neg (hne 0xFD (by decide)), if_neg (hne 0xFE (by decide)),
    if_neg (hne 0xFF (by decide))]

end

/-- The model's dispatch meets every row of R222. -/
theorem dumpSpec_dumpEvents (id : Byte) (s : State) : DumpSpec id s (dumpEvents id s) := by
  refine ⟨dumpEvents_of_lt s, dumpEvents_of_no_row s, ?_, ?_, ?_⟩
  · rintro rfl
    exact ⟨_, _, memSnapshot_allMem s, regSnapshot_allRegs s, rfl⟩
  · rintro rfl
    exact ⟨_, memSnapshot_allMem s, rfl⟩
  · rintro rfl
    exact ⟨_, regSnapshot_allRegs s, rfl⟩

/-- Settles O39: with the id byte in range the events of the dispatch are sent. -/
theorem genericDumpResult : Obligations.GenericDumpResult := fun id s =>
  ⟨fun rest => decode_genericDump (id :: rest),
    completesOrRangeFault_of_exec rfl ⟨_, dumpSpec_dumpEvents id s, sendResult_advance _ 2 s⟩⟩

/-! ### exit (R220) -/

/-- Settles O40: exit sets the run state and sends `Halt`. -/
theorem exitResult : Obligations.ExitResult :=
  ⟨decode_exit, fun s =>
    ⟨emit (.halt .exited) { s with run := .exited }, rfl, rfl, rfl, rfl, rfl, fun _ _ => rfl, fun _ => rfl, rfl⟩⟩

/-! ### printString (R213) -/

theorem exec_printString (s : State) : exec .printString s = .next (printStringNext s) := rfl

theorem map_char_eq_stringChars (s : State) (n : Nat) :
    ((List.range n).map fun j => s.load (s.pc + 1 + BitVec.ofNat 8 j)).map Event.char = stringChars s n :=
  List.map_map

/-! A string of `n` characters that ends at a zero byte, within range or under wrap -/

section
variable {s : State} {n : Nat} (hn : n ≤ 255) (hrange : s.params.addrOverflow = .wrap ∨ s.pc.toNat + 1 + n ≤ 0xFF)
  (hchars : ∀ j, j < n → s.load (s.pc + 1 + BitVec.ofNat 8 j) ≠ 0) (hzero : s.load (s.pc + 1 + BitVec.ofNat 8 n) = 0)
include hn hrange hchars hzero

theorem scanAt_of_zero : scanAt s =
    ((List.range n).map (fun j => s.load (s.pc + 1 + BitVec.ofNat 8 j)), .zero (s.pc + 1 + BitVec.ofNat 8 n)) := by
  simp only [← ofNat_scanAddr] at hchars hzero ⊢
  exact scanString_zero (by omega) hrange hchars hzero

theorem exec_printString_of_zero : exec .printString s = .next
    ((emitAll (stringChars s n) s).setPc (putsEndPc s.params.putsEnd (s.pc + 1 + BitVec.ofNat 8 n))) := by
  rw [exec_printString, printStringNext, scanAt_of_zero hn hrange hchars hzero, map_char_eq_stringChars]

end

/-! A string without a zero byte up to 0xFF, under fault -/

section
variable {s : State} (hmode : s.params.addrOverflow = .fault)
  (hchars : ∀ j, s.pc.toNat + 1 + j ≤ 0xFF → s.load (s.pc + 1 + BitVec.ofNat 8 j) ≠ 0)
include hmode hchars

theorem scanAt_of_past : scanAt s =
    ((List.range (0xFF - s.pc.toNat)).map (fun j => s.load (s.pc + 1 + BitVec.ofNat 8 j)), .past) := by
  have hpc := s.pc.isLt
  simp only [← ofNat_scanAddr] at hchars ⊢
  rw [scanAt, hmode]
  exact scanString_past (by omega) (by omega) fun j hj => hchars j (by omega)

theorem exec_printString_of_past : exec .printString s =
    .next (raiseFault .addressRange (emitAll (stringChars s (0xFF - s.pc.toNat)) s)) := by
  rw [exec_printString, printStringNext, scanAt_of_past hmode hchars, map_char_eq_stringChars]

end

/-- Settles O34: the characters are sent, then the pc is set as by a control transfer. -/
theorem printStringResult : Obligations.PrintStringResult := by
  intro s n hn hrange hchars hzero
  obtain ⟨hpc, hregs, hmem, hev, hrest⟩ := jumpResult_setPc
    (putsEndPc s.params.putsEnd (s.pc + 1 + BitVec.ofNat 8 n)) (emitAll (stringChars s n) s)
  exact ⟨decode_printString, _, exec_printString_of_zero hn hrange hchars hzero, hev,
    fun h => by rw [hpc, h]; rfl, fun h => by rw [hpc, h]; rfl, hregs, hmem, hrest⟩

/-- Settles O35: the scan ends past 0xFF, and the fault is taken after the characters. -/
theorem printStringPastTopFaults : Obligations.PrintStringPastTopFaults := fun _ hmode hchars =>
  ⟨_, exec_printString_of_past hmode hchars, faultedFrom_raiseFault _ _⟩

end Sys2Proof.Machine
end

section
/-! SUPPORT. Faults and the run state (60_exceptions.md), and the statements about them. -/

namespace Sys2Proof.Machine

/-! ### No run on (R243, R260) -/

/-- Settles O44: such a step takes the host's next action, and there is none. -/
theorem nothingRunsWithoutTheHost : Obligations.NothingRunsWithoutTheHost := by
  intro s hm hh
  rw [step_host hm, hostStep, hh]

/-! ### The transitions of the run state (R243) -/

/-- The run state after an instruction: kept, or Faulted, or what getchar and exit make it. -/
theorem run_of_outcomes {i : Instr} {s t : State} (h : Outcomes i s t) :
    t.run = s.run ∨ t.run = .faulted ∨ (t.run = .awaitInput ∧ i = .getchar) ∨ (t.run = .exited ∧ i = .exit) := by
  cases h with
  | fault q es hc h => rw [h]; exact .inr (.inl rfl)
  | wait hi h he => rw [h]; exact .inr (.inr (.inl ⟨rfl, hi⟩))
  | exit hi h => rw [h]; exact .inr (.inr (.inr ⟨rfl, hi⟩))
  | endless hi he h => rw [h]; exact .inl rfl
  | effects h => rw [h.1]; exact .inl rfl

/-- A printString keeps the run state unless it faults. -/
theorem printStringNext_run (s : State) :
    (printStringNext s).run = s.run ∨ (printStringNext s).run = .faulted := by
  rcases run_of_outcomes (outcomes_printStringNext s) with h | h | ⟨-, hi⟩ | ⟨-, hi⟩
  · exact .inl h
  · exact .inr h
  · cases hi
  · cases hi

theorem run_after_running {s t : State} (hr : s.run = .running) (h : step s = .next t) :
    t.run = .running ∨ t.run = .faulted ∨
    (t.run = .awaitInput ∧ s.load s.pc = 0xE1) ∨ (t.run = .exited ∧ s.load s.pc = 0xEE) := by
  rcases running_step_cases hr with ⟨-, e⟩ | ⟨-, i, hd, e⟩ | ⟨-, -, -, e⟩ <;> rw [e] at h
  · cases h
    exact (printStringNext_run { s with inString := false }).imp (·.trans hr) .inl
  · rcases run_of_outcomes (exec_outcomes h) with hrun | hrun | ⟨hrun, rfl⟩ | ⟨hrun, rfl⟩
    · exact .inl (hrun.trans hr)
    · exact .inr (.inl hrun)
    · exact .inr (.inr (.inl ⟨hrun, opcode_of_decode hd rfl⟩))
    · exact .inr (.inr (.inr ⟨hrun, opcode_of_decode hd rfl⟩))
  · cases h
    exact .inr (.inl rfl)

theorem run_after_awaitInput {s t : State} (hr : s.run = .awaitInput) (h : step s = .next t) :
    (t.run = .running ∧ ∃ n rest, s.host = .input n :: rest) ∨ (t.run = .awaitInput ∧ s.host = []) := by
  cases step_cases h with
  | input _ n rest hh h => exact .inl ⟨by rw [h, completeGetchar_run], n, rest, hh⟩
  | held _ hh h => exact .inr ⟨h ▸ hr, hh⟩
  | lap hr' | instr hr' | invalid hr' => exact absurd (hr.symm.trans hr') (by decide)
  | host hm =>
    have hwait : ¬ HostMayAct s := by simp [HostMayAct, hr]
    exact absurd hm hwait

/-- Of the host's actions only a start and a wipe set the run state. -/
theorem run_of_hostAct {a : HostAction} {s t : State} (h : hostAct a s = .next t) :
    (t.run = .running ∧ a = .start) ∨ (t.run = .idle ∧ a = .wipe) ∨ (t.run = s.run ∧ a ≠ .start ∧ a ≠ .wipe) := by
  cases a with
  | setProgramStart v => cases h; exact .inr (.inr ⟨rfl, nofun, nofun⟩)
  | setFlags verbose promptOnInput => cases h; exact .inr (.inr ⟨rfl, nofun, nofun⟩)
  | loadWrite addr v => cases h; exact .inr (.inr ⟨rfl, nofun, nofun⟩)
  | load tokens =>
    cases h
    refine .inr (.inr ⟨?_, nofun, nofun⟩)
    split
    · rw [loadTokens_eq]
    · rfl
  | wipe => cases h; exact .inr (.inl ⟨rfl, rfl⟩)
  | start =>
    dsimp only [hostAct] at h
    split at h
    · cases h
    · cases h; exact .inl ⟨rfl, rfl⟩
  | input n => cases h

theorem run_after_hostMayAct {s t : State} (hm : HostMayAct s) (h : step s = .next t) :
    (t.run = .running ∧ ∃ rest, s.host = .start :: rest) ∨ (t.run = .idle ∧ ∃ rest, s.host = .wipe :: rest) ∨
    (t.run = s.run ∧ s.host.head? ≠ some .start ∧ s.host.head? ≠ some .wipe) := by
  cases hh : s.host with
  | nil =>
    rw [nothingRunsWithoutTheHost s hm hh] at h
    cases h
    exact .inr (.inr ⟨rfl, nofun, nofun⟩)
  | cons a rest =>
    rw [step_hostAct hm hh] at h
    rcases run_of_hostAct h with ⟨hrun, rfl⟩ | ⟨hrun, rfl⟩ | ⟨hrun, hstart, hwipe⟩
    · exact .inl ⟨hrun, rest, rfl⟩
    · exact .inr (.inl ⟨hrun, rest, rfl⟩)
    · exact .inr (.inr ⟨hrun, by simpa using hstart, by simpa using hwipe⟩)

/-- Settles O43: one lemma for each row of the state machine's first column. -/
theorem runStateTransitions : Obligations.RunStateTransitions := fun _ _ h =>
  ⟨fun hr => run_after_running hr h, fun hr => run_after_awaitInput hr h, fun hm => run_after_hostMayAct hm h⟩

/-! ### The step that faults (R240, R241) -/

/-- Why a step of a running machine faults: a lap of an endless string ran past the top, the instruction at pc has a cause to,
or the byte at pc is no opcode (R240). -/
inductive StepFaultCause (s : State) : FaultReason → Prop where
  | lap (hs : s.inString = true) (h : (scanAt s).2 = .past) : StepFaultCause s .addressRange
  | instr (i : Instr) (q : FaultReason)
      (hd : decode [s.load s.pc, s.load (s.pc + 1), s.load (s.pc + 2), s.load (s.pc + 3)] = .ok i)
      (hc : FaultCause i s q) : StepFaultCause s q
  | invalid (h : InvalidByte (s.load s.pc)) : StepFaultCause s .invalidOpcode

/-- `t` is the fault entry from a state with the registers and memory of `s` and perhaps more events (R241). -/
def FaultsWith (q : FaultReason) (s t : State) : Prop :=
  ∃ u : State, u.regs = s.regs ∧ u.mem = s.mem ∧ s.events <+: u.events ∧ t = raiseFault q u

theorem faultsWith_raiseFault {s u : State} (q : FaultReason) (hregs : u.regs = s.regs) (hmem : u.mem = s.mem)
    (hev : s.events <+: u.events) : FaultsWith q s (raiseFault q u) := ⟨u, hregs, hmem, hev, rfl⟩

/-- An instruction that ends in Faulted raised a fault; it had done nothing before but send events. -/
theorem fault_of_outcomes {i : Instr} {s t : State} (hr : s.run ≠ .faulted) (h : Outcomes i s t) (ht : t.run = .faulted) :
    ∃ q es, FaultCause i s q ∧ t = raiseFault q (emitAll es s) := by
  cases h with
  | fault q es hc h => exact ⟨q, es, hc, h⟩
  | wait hi h he => rw [h] at ht; cases ht
  | exit hi h => rw [h] at ht; cases ht
  | endless hi he h => rw [h] at ht; exact absurd ht hr
  | effects h => rw [h.1] at ht; exact absurd ht hr

/-- A printString that ends in Faulted ran past the top and raised the fault after its characters. -/
theorem printStringNext_faulted {s : State} (hr : s.run ≠ .faulted) (ht : (printStringNext s).run = .faulted) :
    (scanAt s).2 = .past ∧ ∃ es, printStringNext s = raiseFault .addressRange (emitAll es s) := by
  unfold printStringNext at ht ⊢
  cases h : (scanAt s).2 with
  | past => exact ⟨rfl, _, rfl⟩
  | zero addr => rw [h] at ht; exact absurd ht hr
  | endless => rw [h] at ht; exact absurd ht hr

/-- The fetch changes nothing that a cause speaks of. -/
theorem faultCause_of_fetched {i : Instr} {s : State} {q : FaultReason}
    (h : FaultCause i (latchOperands (traceFetch s)) q) : FaultCause i s q := by
  cases h with
  | operand k hk h => exact .operand k hk h
  | arithOperand op ops hi h => exact .arithOperand op ops hi h
  | scan hi h => exact .scan hi h
  | full hi h => exact .full hi h
  | empty hi h => exact .empty hi h

/-- A byte that decodes to nothing is one of R78's. -/
theorem invalidByte_of_decode_window_error {op n1 n2 n3 : Byte} {e : DecodeError}
    (h : decode [op, n1, n2, n3] = .error e) : InvalidByte op := by
  rw [decode_window_error h] at h
  exact (invalidBytesAreExactlyThoseListed op [n1, n2, n3]).1 h

/-- Everything about a step of a running machine that ends in Faulted. -/
theorem faulted_step_cases {s t : State} (hr : s.run = .running) (h : step s = .next t) (ht : t.run = .faulted) :
    ∃ q, StepFaultCause s q ∧ FaultsWith q s t := by
  have hne : s.run ≠ .faulted := by rw [hr]; decide
  rcases running_step_cases hr with ⟨hs, e⟩ | ⟨-, i, hd, e⟩ | ⟨-, e', hd, e⟩ <;> rw [e] at h
  · cases h
    obtain ⟨hpast, es, e⟩ := printStringNext_faulted (s := { s with inString := false }) hne ht
    rw [e]
    exact ⟨_, .lap hs hpast, faultsWith_raiseFault _ rfl rfl (List.prefix_append _ _)⟩
  · obtain ⟨q, es, hc, rfl⟩ := fault_of_outcomes (s := latchOperands (traceFetch s)) hne (exec_outcomes h) ht
    have hev := (events_prefix_traceFetch s).trans (List.prefix_append _ es)
    exact ⟨q, .instr i q hd (faultCause_of_fetched hc), faultsWith_raiseFault q rfl rfl hev⟩
  · cases h
    exact ⟨_, .invalid (invalidByte_of_decode_window_error hd),
      faultsWith_raiseFault _ rfl rfl (events_prefix_traceFetch s)⟩

/-- Settles O41: the fault entry reads A and its opcode byte from registers and memory that are those before the step. -/
theorem faultsArePrecise : Obligations.FaultsArePrecise := by
  intro s t hr h ht
  obtain ⟨q, -, u, hregs, hmem, ⟨es, hev⟩, rfl⟩ := faulted_step_cases hr h ht
  have hreg : RegsSame [] s u := regsSame_of_regs_eq hregs []
  have hload : MemSame s u := memSame_of_mem_eq hmem
  have hpc : u.pc = s.pc := hreg pcReg List.not_mem_nil
  have hop : u.load u.pc = s.load s.pc := by rw [hpc, hload]
  refine ⟨hreg, hload, hpc, hop, ⟨es, by rw [raiseFault_events, hev, raiseFault_faultReason]⟩, ?_, ?_⟩
  · change Status.faulted q u.pc (u.load u.pc) = _
    rw [hop, hpc, raiseFault_faultReason]
  · exact congrArg some (hreg 0 List.not_mem_nil)

/-! ### The cause of each reason (R240) -/

theorem popByte_pack (d : Reg) : PopByte (pack 0x9 d) :=
  (by decide : ∀ d : Reg, PopByte (pack 0x9 d)) d

section
variable {s : State}

theorem invalidByte_of_cause (h : StepFaultCause s .invalidOpcode) : InvalidByte (s.load s.pc) := by
  cases h with
  | invalid h => exact h
  | instr i _ hd hc => cases hc

theorem stackFull_of_cause (h : StepFaultCause s .stackOverflow) :
    s.sp = 0x00 ∧ (PushByte (s.load s.pc) ∨ s.load s.pc = 0xC2) := by
  cases h with | instr i _ hd hc =>
  cases hc with | full hi hsp =>
  rcases hi with ⟨d, rfl⟩ | ⟨x, rfl⟩
  · rw [opcode_of_decode hd rfl]
    exact ⟨hsp, .inl (pushByte_pack d)⟩
  · exact ⟨hsp, .inr (opcode_of_decode hd rfl)⟩

theorem stackEmpty_of_cause (h : StepFaultCause s .stackUnderflow) :
    s.sp = 0xFF ∧ (PopByte (s.load s.pc) ∨ s.load s.pc = 0xC3) := by
  cases h with | instr i _ hd hc =>
  cases hc with | empty hi hsp =>
  rcases hi with ⟨d, rfl⟩ | rfl
  · rw [opcode_of_decode hd rfl]
    exact ⟨hsp, .inl (popByte_pack d)⟩
  · exact ⟨hsp, .inr (opcode_of_decode hd rfl)⟩

/-- The invariant excludes the lap: an endless string goes on under wrap only. -/
theorem addressRange_of_cause (hi : Inv s) (h : StepFaultCause s .addressRange) :
    s.params.addrOverflow = .fault ∧
    ((s.load s.pc = 0xE2 ∧ ∀ j, s.pc.toNat + 1 + j ≤ 0xFF → s.load (s.pc + 1 + BitVec.ofNat 8 j) ≠ 0) ∨
     (∃ i k, decode [s.load s.pc, s.load (s.pc + 1), s.load (s.pc + 2), s.load (s.pc + 3)] = .ok i ∧
        usedOperands i = some k ∧ 0xFF < s.pc.toNat + k) ∨
     (∃ op, s.load s.pc = arithOpcode op ∧ 0xFF < s.pc.toNat + (Config.arith op).nOps.val)) := by
  cases h with
  | lap hs h =>
    obtain ⟨-, hwrap, -⟩ := hi.2 hs
    obtain ⟨hfault, -⟩ := of_scanAt_past h
    exact absurd (hwrap.symm.trans hfault) (by decide)
  | instr i _ hd hc =>
    cases hc with
    | operand k hk h =>
      obtain ⟨hfault, htop⟩ := h
      exact ⟨hfault, .inr (.inl ⟨i, k, hd, hk, htop⟩)⟩
    | arithOperand op ops hi h =>
      subst hi
      obtain ⟨hfault, htop⟩ := h
      exact ⟨hfault, .inr (.inr ⟨op, opcode_of_decode hd (encode_arithInstr op ops), htop⟩)⟩
    | scan hi h =>
      subst hi
      obtain ⟨hfault, hchars⟩ := of_scanAt_past h
      exact ⟨hfault, .inl ⟨opcode_of_decode hd rfl, hchars⟩⟩

end

/-- Settles O42: the reason recorded is the one raised, and each reason has its causes. -/
theorem faultsHaveTheirCause : Obligations.FaultsHaveTheirCause := by
  intro s t hi hr h ht
  obtain ⟨q, hc, u, -, -, -, rfl⟩ := faulted_step_cases hr h ht
  rw [raiseFault_faultReason]
  refine ⟨?_, ?_, ?_, ?_⟩ <;> rintro rfl
  · exact invalidByte_of_cause hc
  · exact stackFull_of_cause hc
  · exact stackEmpty_of_cause hc
  · exact addressRange_of_cause hi hc

end Sys2Proof.Machine
end

section
/-! SUPPORT. Reset, run entry and wipe (70_reset_and_hazards.md), the parameters over every step (00_scope.md section 4), and the
printString that never ends (93_implementation_defined.md I15), with the statements about them. -/

namespace Sys2Proof.Machine

/-! ### Reset (R270) -/

/-- The register file at construction is the one a wipe leaves. -/
theorem reset_reg (r : Reg) : State.reset.reg r = 0x00 := wipe_reg State.reset r

/-- Settles O52: an empty memory reads 0x00 everywhere, and the other values are fields of the reset state. -/
theorem resetValues : Obligations.ResetValues :=
  ⟨reset_reg, fun _ => rfl, rfl, rfl, rfl, rfl, rfl, rfl⟩

/-- Settles O53: the empty memory is in canonical form, and no string is in progress. -/
theorem resetMeetsInvariant : Obligations.ResetMeetsInvariant := inv_of_inString_false nil_wf rfl

/-! ### Run entry and wipe (R272, R273) -/

/-- Run entry writes registers, memory, the run state and the string flag only. -/
theorem restSame_start (s : State) : RestSame { s with run := .running, inString := false } (start s) := rfl

/-- A step that takes a start, no load having failed, is run entry. -/
theorem step_start {s : State} {rest : List HostAction} (hm : HostMayAct s) (hh : s.host = .start :: rest)
    (hf : s.loadFailed = false) : step s = .next (start { s with host := rest }) := by
  rw [step_hostAct hm hh, hostAct, if_neg (by rw [hf]; decide)]

/-- Settles O54: the step is run entry, whose values and frame are `start_spec` and `restSame_start`. -/
theorem startResult : Obligations.StartResult := by
  intro s rest hw hm hh hf
  have hw' : { s with host := rest }.mem.wf = true := hw
  obtain ⟨hpc, hsp, hsentinel, hrun, hregs, hmem, -, hev⟩ := start_spec hw'
  exact ⟨_, step_start hm hh hf, hpc, hsp, hsentinel, hrun, hregs, hmem, hev, restSame_start _⟩

/-- After a wipe every cell is zero (R272). -/
theorem wipe_load (s : State) (a : Byte) : (wipe s).load a = 0x00 := rfl

/-- In AwaitInput the host may not wipe (R38). -/
theorem step_wipe_of_awaitInput {s : State} {rest : List HostAction} (hr : s.run = .awaitInput)
    (hh : s.host = .wipe :: rest) : step s = .fault .hostActionNotAllowed := by
  rw [step_awaitInput hr, awaitStep, hh]

/-- Settles O55: the step is the wipe, or stops the model where a getchar waits. -/
theorem wipeResult : Obligations.WipeResult := fun _ _ hh =>
  ⟨fun hm => ⟨_, step_hostAct hm hh, wipe_reg _, wipe_load _, rfl, rfl, rfl, rfl, rfl, rfl⟩,
    fun hr => step_wipe_of_awaitInput hr hh⟩

/-! ### The parameters over every step (R9, R10) -/

/-- Settles O48: an instruction leaves all control state, and so do the completion of a getchar and the host's actions as far
as the parameters go. -/
theorem parametersNeverChange : Obligations.ParametersNeverChange := by
  intro s t hst
  cases step_cases hst with
  | lap hr | instr hr | invalid hr =>
    obtain ⟨-, -, -, hparams, -⟩ := instructionsLeaveControlState s t hr hst
    exact hparams
  | input hr n rest hh h => rw [h, completeGetchar_eq]
  | host hm a rest hh h =>
    obtain ⟨-, hparams, -, -⟩ := hostAct_keeps h
    exact hparams
  | held hr hh h => rw [h]

/-! ### A printString that never ends (R213, I15) -/

section
variable {s : State} (hwrap : s.params.addrOverflow = .wrap) (hmem : ∀ a, s.load a ≠ 0)
include hwrap hmem

/-- Under wrap over a memory without a zero byte the scan reads all 256 cells and does not end. -/
theorem scanAt_of_no_zero : scanAt s =
    ((List.range 256).map (fun j => s.load (s.pc + 1 + BitVec.ofNat 8 j)), .endless) := by
  simp only [← ofNat_scanAddr]
  rw [scanAt, hwrap]
  exact scanString_endless hmem 256 (s.pc.toNat + 1)

/-- One lap of memory: 256 characters sent and the string in progress (log 12). -/
theorem printStringNext_of_no_zero : printStringNext s =
    { s with events := s.events ++ stringChars s 256, inString := true } := by
  rw [printStringNext, scanAt_of_no_zero hwrap hmem, map_char_eq_stringChars]
  rfl

/-- Inside such a string every step is the next lap, which leaves the mark set. -/
theorem step_inString_of_no_zero (hr : s.run = .running) (hs : s.inString = true) :
    step s = .next { s with events := s.events ++ stringChars s 256 } := by
  have hlap := printStringNext_of_no_zero (s := { s with inString := false }) hwrap hmem
  rw [step_inString hr hs, hlap, ← hs]
  rfl

end

/-- Settles O36: the instruction and each later step are one lap of memory. -/
theorem printStringNeverEnds : Obligations.PrintStringNeverEnds := fun s hwrap hmem =>
  ⟨by rw [exec_printString, printStringNext_of_no_zero hwrap hmem], step_inString_of_no_zero hwrap hmem⟩

end Sys2Proof.Machine
end
